-- ==== Sys2Proof/Word.lean ====
section
/-! DEFINITION. The word types of the block: every register and every command or response word is a bit vector of a
stated width (spec/00_scope.md R6; widths: 10_state.md R20, 20_memory.md R47). -/

namespace Sys2Proof

/-- A 32-bit value: `ACC`, `FCS`, a command word or a response word (R20, R43, R60). Bit 0 is the least significant
bit (R5). -/
abbrev Word := BitVec 32

/-- One data byte of a window (R47, R68). -/
abbrev Byte := BitVec 8

/-- The 16-bit immediate of LDLO and LDHI (R47, R68). -/
abbrev Half := BitVec 16

end Sys2Proof
end

