-- ==== Sys2Proof/Syntax.lean ====
section
/-! DEFINITION. The ten commands of spec/opcode_table.json, and the assembler's source lines of spec/30_encoding.md
R73 and R74. -/

namespace Sys2Proof

/-- The window flag, which marks a window's position in its computation (30_encoding.md R67). All four values are
legal. Its 2-bit encoding is `WindowFlag.toBits` (Decode.lean); its two properties INIT and FIN are in
Machine/Flags.lean. -/
inductive WindowFlag where
  /-- `MiddleWindow`. -/
  | middle
  /-- `FirstOfMany`. -/
  | first
  /-- `LastWindow`. -/
  | last
  /-- `OnlyWindow`. -/
  | only
deriving DecidableEq, Repr

/-- A command, one constructor per row of spec/opcode_table.json, in the table's order (30_encoding.md R66). An
operand has exactly the width of its field (R68), so every term is a command some word encodes. -/
inductive Instr where
  /-- NOP (R100). -/
  | nop
  /-- WBEGIN (R85): open a window. -/
  | wbegin (flag : WindowFlag)
  /-- WBYTE (R86): process one data byte. -/
  | wbyte (data : Byte)
  /-- WEND (R87): close the window. -/
  | wend
  /-- CLEAR (R101): start a new computation and clear errors. -/
  | clear
  /-- LDLO (R102): load the low half of the accumulator. -/
  | ldlo (imm : Half)
  /-- LDHI (R103): load the high half of the accumulator. -/
  | ldhi (imm : Half)
  /-- RDSTATE (R104): read the accumulator. -/
  | rdstate
  /-- RDWORK (R105): read the working register. -/
  | rdwork
  /-- RDSTATUS (R106): read the status view. -/
  | rdstatus
deriving DecidableEq, Repr

/-- A line of assembler source after parsing: the syntax table of R73, `.word` included, and the four
pseudo-instructions of R74. A number is any natural the line wrote: the assembler's range checks are
`AsmLine.wellFormed` (WellFormed.lean). -/
inductive AsmLine where
  /-- A line that holds no command (blank, or a comment only). -/
  | blank
  /-- `nop`. -/
  | nop
  /-- `wbegin only`, `wbegin first`, `wbegin middle`, `wbegin last`. -/
  | wbegin (flag : WindowFlag)
  /-- `wbyte b`. -/
  | wbyte (b : Nat)
  /-- `wend`. -/
  | wend
  /-- `clear`. -/
  | clear
  /-- `ldlo imm`. -/
  | ldlo (imm : Nat)
  /-- `ldhi imm`. -/
  | ldhi (imm : Nat)
  /-- `rdstate`. -/
  | rdstate
  /-- `rdwork`. -/
  | rdwork
  /-- `rdstatus`. -/
  | rdstatus
  /-- `.word w`: the raw word w. -/
  | word (w : Nat)
  /-- `ld32 v`. -/
  | ld32 (v : Nat)
  /-- `wbytes b0, b1, ..., bn-1`. -/
  | wbytes (bs : List Nat)
  /-- `window F, b0, ..., bn-1`. -/
  | window (flag : WindowFlag) (bs : List Nat)
  /-- `wstr F, "text"`. -/
  | wstr (flag : WindowFlag) (text : List Char)
deriving DecidableEq, Repr

end Sys2Proof
end

