-- ==== Sys2Proof/WellFormed.lean ====
section
/-! DEFINITION. Which commands and which assembler lines are well formed (spec/30_encoding.md R68, R73). -/

namespace Sys2Proof

/-- Every command is well formed: each operand's type has exactly the values its field admits (R61, R67, R68: "no flag
value is reserved", 8 data bits, 16 immediate bits), so an ill-formed command cannot be written down. The checks that
can fail are the assembler's, below, and the decoder's (Decode.lean). -/
def Instr.wellFormed : Instr → Bool
  | .nop => true
  | .wbegin _ => true
  | .wbyte _ => true
  | .wend => true
  | .clear => true
  | .ldlo _ => true
  | .ldhi _ => true
  | .rdstate => true
  | .rdwork => true
  | .rdstatus => true

/-- What the assembler checks of a line's numbers: "An assembler refuses a `wbyte` operand above 255, an
`ldlo`/`ldhi` operand above 0xFFFF" (R73). The bounds of `.word` and `ld32` are the width of a word (R60, R74), and
each byte of `wbytes` and `window` is a `wbyte` operand (R74). -/
def AsmLine.wellFormed : AsmLine → Bool
  | .wbyte b => decide (b ≤ 0xFF)
  | .ldlo imm => decide (imm ≤ 0xFFFF)
  | .ldhi imm => decide (imm ≤ 0xFFFF)
  | .word w => decide (w ≤ 0xFFFFFFFF)
  | .ld32 v => decide (v ≤ 0xFFFFFFFF)
  | .wbytes bs => bs.all fun b => decide (b ≤ 0xFF)
  | .window _ bs => bs.all fun b => decide (b ≤ 0xFF)
  | .blank | .nop | .wbegin _ | .wend | .clear | .rdstate | .rdwork | .rdstatus | .wstr _ _ => true

end Sys2Proof
end

