-- ==== Sys2Proof/Decode.lean ====
section
/-! DEFINITION. The decoder and the encoder of command words (spec/30_encoding.md R60-R72), and the reading of a table
word that the host asks for. A command is one 32-bit word without byte lanes (R43, R60), so no byte order enters. -/

namespace Sys2Proof

/-- `OP`, bits 31:28 of the command word (R61). -/
def opField (w : Word) : BitVec 4 := w.extractLsb' 28 4

/-- `FLG`, bits 25:24 (R61, R68). -/
def flgField (w : Word) : BitVec 2 := w.extractLsb' 24 2

/-- `DATA`, bits 7:0 (R61, R68). -/
def dataField (w : Word) : Byte := w.extractLsb' 0 8

/-- `IMM`, bits 15:0 (R61, R68). -/
def immField (w : Word) : Half := w.extractLsb' 0 16

/-- The flag's 2-bit encoding, in `FLG` and in the `FLAG` register (R67, R24): bit 0 is INIT, bit 1 is FIN. -/
def WindowFlag.toBits : WindowFlag → BitVec 2
  | .middle => 0b00#2
  | .first => 0b01#2
  | .last => 0b10#2
  | .only => 0b11#2

/-- The flag a 2-bit value encodes; "no flag value is reserved" (R67). -/
def WindowFlag.ofBits (b : BitVec 2) : WindowFlag :=
  match b.getLsbD 1, b.getLsbD 0 with
  | false, false => .middle
  | false, true => .first
  | true, false => .last
  | true, true => .only

/-- The four formats of a command word (R62-R65). -/
inductive Format where
  /-- No operand (R62). -/
  | N
  /-- Flag in bits 25:24 (R63). -/
  | F
  /-- Byte in bits 7:0 (R64). -/
  | B
  /-- Immediate in bits 15:0 (R65). -/
  | I
deriving DecidableEq, Repr

/-- The bits a format fixes: `OP` and every must-be-zero bit (R62-R65). -/
def Format.mask : Format → Word
  | .N => 0xFFFFFFFF#32
  | .F => 0xFCFFFFFF#32
  | .B => 0xFFFFFF00#32
  | .I => 0xFFFF0000#32

/-- The ten assigned opcodes (R66). -/
inductive Opcode where
  | nop | wbegin | wbyte | wend | clear | ldlo | ldhi | rdstate | rdwork | rdstatus
deriving DecidableEq, Repr

/-- The `OP` column of the opcode map (R66). -/
def Opcode.code : Opcode → BitVec 4
  | .nop => 0x0#4
  | .wbegin => 0x1#4
  | .wbyte => 0x2#4
  | .wend => 0x3#4
  | .clear => 0x4#4
  | .ldlo => 0x5#4
  | .ldhi => 0x6#4
  | .rdstate => 0x7#4
  | .rdwork => 0x8#4
  | .rdstatus => 0x9#4

/-- The format column of the opcode map (R66). -/
def Opcode.format : Opcode → Format
  | .nop => .N
  | .wbegin => .F
  | .wbyte => .B
  | .wend => .N
  | .clear => .N
  | .ldlo => .I
  | .ldhi => .I
  | .rdstate => .N
  | .rdwork => .N
  | .rdstatus => .N

/-- The mask column of the opcode map (R66): that of the row's format. -/
def Opcode.mask (op : Opcode) : Word := op.format.mask

/-- The match column of the opcode map (R66): `OP` in bits 31:28 and zeros below. -/
def Opcode.pattern (op : Opcode) : Word := op.code.setWidth 32 <<< 28

/-- The opcode an `OP` field selects; 0xA to 0xF are reserved (R66, R70). -/
def Opcode.ofCode (op : BitVec 4) : Option Opcode :=
  match op.toNat with
  | 0x0 => some .nop
  | 0x1 => some .wbegin
  | 0x2 => some .wbyte
  | 0x3 => some .wend
  | 0x4 => some .clear
  | 0x5 => some .ldlo
  | 0x6 => some .ldhi
  | 0x7 => some .rdstate
  | 0x8 => some .rdwork
  | 0x9 => some .rdstatus
  | _ => none

/-- The command of an opcode with the operands its format takes from the word (R68). -/
def Opcode.withOperands (w : Word) : Opcode → Instr
  | .nop => .nop
  | .wbegin => .wbegin (WindowFlag.ofBits (flgField w))
  | .wbyte => .wbyte (dataField w)
  | .wend => .wend
  | .clear => .clear
  | .ldlo => .ldlo (immField w)
  | .ldhi => .ldhi (immField w)
  | .rdstate => .rdstate
  | .rdwork => .rdwork
  | .rdstatus => .rdstatus

/-- Why a word is no command. Both reasons raise ILLEGAL (R69, R132). -/
inductive DecodeError where
  /-- `OP` is 0xA to 0xF (R70). -/
  | reservedOpcode
  /-- A bit outside the format's fields is 1 (R69). -/
  | mustBeZeroBitSet
deriving DecidableEq, Repr

/-- Decode and legality check of a command word (R69), total on every 32-bit value. -/
def decode (w : Word) : Except DecodeError Instr :=
  match Opcode.ofCode (opField w) with
  | none => .error .reservedOpcode
  | some op => if w &&& op.mask = op.pattern then .ok (op.withOperands w) else .error .mustBeZeroBitSet

/-- The word of a command (R62-R66), as R73's table writes it: the opcode in bits 31:28, the operand at its field, and
zeros elsewhere. -/
def encode : Instr → Word
  | .nop => 0x00000000#32
  | .wbegin f => 0x10000000#32 ||| (f.toBits.setWidth 32 <<< 24)
  | .wbyte b => 0x20000000#32 ||| b.setWidth 32
  | .wend => 0x30000000#32
  | .clear => 0x40000000#32
  | .ldlo imm => 0x50000000#32 ||| imm.setWidth 32
  | .ldhi imm => 0x60000000#32 ||| imm.setWidth 32
  | .rdstate => 0x70000000#32
  | .rdwork => 0x80000000#32
  | .rdstatus => 0x90000000#32

/-- The command word whose low `nbits` bits are `w`'s and whose other bits are 0, as spec/opcode_table.json numbers
bits (bit 0 the least significant of the one word). -/
def tableWord (nbits w : Nat) : Word := BitVec.ofNat 32 (w % 2 ^ nbits)

/-- The command the decoder reads from a word of the opcode table; `none` where it refuses. -/
def decodeTableWord (nbits w : Nat) : Option Instr :=
  match decode (tableWord nbits w) with
  | .ok i => some i
  | .error _ => none

end Sys2Proof
end

