-- ==== Sys2Proof/Config.lean ====
section
/-! DEFINITION. What spec/00_scope.md R4 leaves OPEN about one block: `FINALIZE_FEED`, and nothing else. The fixed
parameters of R4 (the polynomial, the round counts, the window size) are named in Sys2Proof/Machine/Parameters.lean.

"`OPEN` marks a parameter the model takes as an argument" (R4): the configuration is a record of plain data that
`State` carries (log entry 2), so a statement about every state is a statement about both values. -/

namespace Sys2Proof

/-- The bit a finalize round feeds into bit 31 (R4, R82): always 1, or the pre-shift bit 0. The source reads both
ways (90_conflicts.md C3). -/
inductive FinalizeFeed where
  /-- Every finalize round feeds 1. -/
  | ones
  /-- A finalize round feeds the register's pre-shift bit 0. -/
  | lowBit
deriving DecidableEq, Repr

/-- The open parameters of a block, "fixed for the life of the block" (R33). The default is the spec's (R4, D17). -/
structure Config where
  /-- `FINALIZE_FEED` (R4, R82). -/
  finalizeFeed : FinalizeFeed := .ones
deriving DecidableEq, Repr

end Sys2Proof
end

