-- ==== Sys2Proof/Machine/Parameters.lean ====
section
/-! DEFINITION. The fixed parameters of spec/00_scope.md R4, each literal in one place (93_implementation_defined.md I3,
I4: SCOPE calls the literals unaudited; log entry 9). `XLEN` = 32 is the width of `Word`; `FINALIZE_FEED` is open and
stands in Sys2Proof/Config.lean. -/

namespace Sys2Proof.Machine

/-- `POLY`, the XOR constant of a round (R4). UNVERIFIED: the source's literal, unaudited. -/
def poly : Word := 0xEDB88320#32

/-- `ROUNDS_PER_BYTE` (R4). -/
def roundsPerByte : Nat := 8

/-- `FINAL_ROUNDS` (R4; 90_conflicts.md C5). -/
def finalRounds : Nat := 32

/-- `INIT_VALUE`, the working register on an entry-inverting window (R4). UNVERIFIED: unaudited literal. -/
def initValue : Word := 0xFFFFFFFF#32

/-- `ACC_RESET`, the accumulator before the first window (R4). -/
def accReset : Word := 0x00000000#32

/-- `WINDOW_SIZE`, the host's maximum window length in bytes (R4, R110); the block never reads it. UNVERIFIED:
unaudited literal, which cannot change a checksum (R115). -/
def windowSize : Nat := 6600000

end Sys2Proof.Machine
end

