-- ==== Sys2Proof/Machine/State.lean ====
section
/-! DEFINITION. The state of the block (spec/10_state.md R20), the inputs it has not yet taken, the outcomes' reasons,
and the state after reset (R34, R160). -/

namespace Sys2Proof.Machine

/-- `PHASE` (R23): 0 is `Idle`, between windows; 1 is `InWindow`, inside a window. -/
inductive Phase where
  | idle
  | inWindow
deriving DecidableEq, Repr

/-- The errors a command can raise (60_exceptions.md R131, codes 1 to 5; their codes are `ProtocolError.code` in
Machine/Ops.lean). -/
inductive ProtocolError where
  /-- Reserved opcode, or a must-be-zero bit set (R132). -/
  | illegal
  /-- WBEGIN while `PHASE = InWindow` (R133). -/
  | beginInWindow
  /-- WBYTE while `PHASE = Idle` (R134). -/
  | byteOutside
  /-- WEND while `PHASE = Idle` (R135). -/
  | endOutside
  /-- LDLO or LDHI while `PHASE = InWindow` (R136). -/
  | loadInWindow
deriving DecidableEq, Repr

/-- What reaches the block from outside through its three interfaces (92_eei_decisions.md D2): the command channel,
the reset input, and the host's taking of response words. -/
inductive Input where
  /-- One word arrives on the command channel (R9, R60). -/
  | command (w : Word)
  /-- The reset input goes active; `inProgress` is the command word the block was executing at that moment, if any
  (R160, R162). -/
  | assertReset (inProgress : Option Word)
  /-- The reset input goes inactive. -/
  | releaseReset
  /-- The host takes the oldest response word (R28). -/
  | takeResponse
deriving DecidableEq, Repr

/-- The state of the block and of its interfaces. The first seven fields are exactly the tuple of R20; the last three
are the MODEL's own (log entries 1, 2 and 3). -/
structure State where
  /-- `ACC`, the Checksum State (R21). -/
  acc : Word
  /-- `FCS`, the working register (R22). -/
  fcs : Word
  /-- `PHASE` (R23). -/
  phase : Phase
  /-- `FLAG`, the flag of the current or last window (R24). -/
  flag : WindowFlag
  /-- `ERR`, the sticky error bit (R25). -/
  err : Bool
  /-- `ERRCODE`, the first error's code (R26). -/
  errcode : BitVec 4
  /-- The response channel: the words the host has not yet taken, oldest first (R28). -/
  responses : List Word
  /-- MODEL: the block's configuration, which no step changes (R33). -/
  config : Config
  /-- MODEL: the level of the reset input, true while reset is held (R162). -/
  resetHeld : Bool
  /-- MODEL: what arrives from outside, in arrival order (R9, R50). -/
  inputs : List Input
deriving DecidableEq, Repr

/-- Why a step could stop with a fault: for no reason. "It does not trap, redirect control, stop the block or signal an
interrupt" (R130), and every command completes (R167), so nobody raises one; a type without constructors says so
(log entry 7: safe). -/
inductive Fault where
deriving DecidableEq, Repr

/-- Why a step could be refused. -/
inductive Refusal where
  /-- Raised by an arm of `exec` for a command that has no meaning yet; safe. No arm raises it: all ten commands have
  their meaning. -/
  | notModelled (mnemonic : String)
deriving DecidableEq, Repr

/-- The state after reset of a block with configuration `c` (R34, R160), reset released, nothing sent yet. -/
def State.resetWith (c : Config) : State where
  acc := accReset
  fcs := 0x00000000#32
  phase := .idle
  flag := .middle
  err := false
  errcode := 0#4
  responses := []
  config := c
  resetHeld := false
  inputs := []

/-- The state after reset of a block with the spec's default configuration (R4, R34, R160). -/
def State.reset : State := State.resetWith {}

end Sys2Proof.Machine
end

