-- ==== Sys2Proof/Machine/Flags.lean ====
section
/-! DEFINITION. The two properties of a window flag (spec/30_encoding.md R67) and the status view (10_state.md R27). -/

namespace Sys2Proof

/-- INIT, "invert-on-entry": "true exactly for `OnlyWindow` and `FirstOfMany`" (R67). -/
def WindowFlag.init : WindowFlag → Bool
  | .middle => false
  | .first => true
  | .last => false
  | .only => true

/-- FIN, "finalize": "true exactly for `OnlyWindow` and `LastWindow`" (R67; 90_conflicts.md C2). -/
def WindowFlag.fin : WindowFlag → Bool
  | .middle => false
  | .first => false
  | .last => true
  | .only => true

namespace Machine

/-- The bit of `PHASE` (R23). -/
def Phase.toBit : Phase → BitVec 1
  | .idle => 0#1
  | .inWindow => 1#1

/-- `STATUS = zext_32({ERRCODE, ERR, FLAG, PHASE})` (R27). -/
def statusView (s : State) : Word :=
  (s.errcode ++ BitVec.ofBool s.err ++ s.flag.toBits ++ s.phase.toBit).setWidth 32

end Machine

end Sys2Proof
end

