-- ==== Sys2Proof/Machine/Operands.lean ====
section
/-! DEFINITION. Where an immediate goes in the accumulator (spec/20_memory.md R44, 30_encoding.md R68): the halves are
defined by bit position, without extension. -/

namespace Sys2Proof.Machine

/-- `{a[31:16], imm}` (R102). -/
def withLowHalf (a : Word) (imm : Half) : Word := 
  (a &&& 0xFFFF0000#32) ||| imm.setWidth 32

/-- `{imm, a[15:0]}` (R103). -/
def withHighHalf (a : Word) (imm : Half) : Word := 
  (imm.setWidth 32 <<< 16) ||| (a &&& 0x0000FFFF#32)

end Sys2Proof.Machine
end

