-- ==== Sys2Proof/Machine/Ops.lean ====
section
/-! DEFINITION. The operations the commands and the inputs share: raising a ProtocolError (spec/60_exceptions.md R137),
opening, feeding and closing a window (40_window.md R85-R87), loading the accumulator (41_control.md R102, R103),
appending and taking response words (10_state.md R28), clearing the registers (41_control.md R101) and reset
(70_reset_and_hazards.md R160, R162). Each is one update of the state. The block has no memory and no register file to operate on (R29, R31), and no
return from an error (R140). -/

namespace Sys2Proof.Machine

/-- The code of an error in `ERRCODE` (R131). -/
def ProtocolError.code : ProtocolError → BitVec 4
  | .illegal => 1#4
  | .beginInWindow => 2#4
  | .byteOutside => 3#4
  | .endOutside => 4#4
  | .loadInWindow => 5#4

/-- `raise ProtocolError(code)` (R137): the first code is kept, `ERR` becomes 1, nothing else changes. This is the
block's only exception entry; it saves nothing and redirects nothing (R130, R139). -/
def raiseProtocolError (e : ProtocolError) (s : State) : State :=
  { s with errcode := if s.err then s.errcode else e.code, err := true }

/-- A window opens with flag `f` and working register `r` (R85). -/
def openWindow (f : WindowFlag) (r : Word) (s : State) : State :=
  { s with flag := f, fcs := r, phase := .inWindow }

/-- The working register takes `r` (R86). -/
def setWorking (r : Word) (s : State) : State :=
  { s with fcs := r }

/-- The window closes with result `v`, which both registers take; the flag is kept (R24, R87). -/
def closeWindow (v : Word) (s : State) : State :=
  { s with fcs := v, acc := v, phase := .idle }

/-- The accumulator takes `v` (R102, R103). -/
def setAccumulator (v : Word) (s : State) : State :=
  { s with acc := v }

/-- `respond(v)` (00_scope.md R8, R28): the word goes to the end of the response channel. -/
def respond (v : Word) (s : State) : State :=
  { s with responses := s.responses ++ [v] }

/-- The host takes the oldest response word (R28); from an empty channel there is none to take (log entry 4). -/
def takeOldestResponse (s : State) : State :=
  { s with responses := s.responses.tail }

/-- Every register at the value CLEAR and reset give it (R34, R101). The response channel is not touched. -/
def clearRegisters (s : State) : State :=
  { s with acc := accReset, fcs := 0x00000000#32, phase := .idle, flag := .middle, err := false, errcode := 0#4 }

/-- The reset input goes active (R160, R162): every register takes its reset value and the response words not yet
taken are discarded; the configuration stays (R33). -/
def enterReset (s : State) : State :=
  { clearRegisters s with responses := [], resetHeld := true }

/-- The reset input goes inactive: from here on commands are taken (R161). -/
def leaveReset (s : State) : State :=
  { s with resetHeld := false }

/-- The inputs still to come are `xs`. -/
def setInputs (xs : List Input) (s : State) : State :=
  { s with inputs := xs }

end Sys2Proof.Machine
end

