-- ==== Sys2Proof/Machine/Control.lean ====
section
/-! DEFINITION. The control and read commands (spec/41_control.md R100-R106). -/

namespace Sys2Proof.Machine

/-- NOP (R100): nothing, in both phases. -/
def execNop (s : State) : Host.Outcome State Fault Refusal := .next s

/-- CLEAR (R101): every register to its reset value, in both phases; an open window is abandoned, the response channel
is kept. -/
def execClear (s : State) : Host.Outcome State Fault Refusal := .next (clearRegisters s)

/-- LDLO (R102): inside a window LOAD_IN_WINDOW (R136); else `ACC[15:0]` takes the immediate. -/
def execLdlo (imm : Half) (s : State) : Host.Outcome State Fault Refusal :=
  match s.phase with
  | .inWindow => .next (raiseProtocolError .loadInWindow s)
  | .idle => .next (setAccumulator (withLowHalf s.acc imm) s)

/-- LDHI (R103): inside a window LOAD_IN_WINDOW (R136); else `ACC[31:16]` takes the immediate. -/
def execLdhi (imm : Half) (s : State) : Host.Outcome State Fault Refusal :=
  match s.phase with
  | .inWindow => .next (raiseProtocolError .loadInWindow s)
  | .idle => .next (setAccumulator (withHighHalf s.acc imm) s)

/-- RDSTATE (R104): respond with `ACC`, in both phases. -/
def execRdstate (s : State) : Host.Outcome State Fault Refusal := .next (respond s.acc s)

/-- RDWORK (R105): respond with `FCS`, in both phases. -/
def execRdwork (s : State) : Host.Outcome State Fault Refusal := .next (respond s.fcs s)

/-- RDSTATUS (R106): respond with the status view, in both phases; reading clears nothing. -/
def execRdstatus (s : State) : Host.Outcome State Fault Refusal := .next (respond (statusView s) s)

end Sys2Proof.Machine
end

