-- ==== Sys2Proof/Machine/Crc.lean ====
section
/-! DEFINITION. The pure functions of the algorithm (spec/40_window.md R80-R84), which "must be reproduced
bit-exactly". -/

namespace Sys2Proof.Machine

/-- `setbit31(a, c)`: `a` with bit 31 replaced by `c` (00_scope.md R7). -/
def setBit31 (a : Word) (c : Bool) : Word := 
  (a &&& 0x7FFFFFFF#32) ||| ((BitVec.ofBool c).setWidth 32 <<< 31)

/-- `Round(r, c)` (R80): a logical shift right by one, bit 31 forced to `c`, XOR with `POLY` when the pre-shift bit 0
was 1. -/
def crcRound (r : Word) (c : Bool) : Word :=
  let t := setBit31 (r >>> 1) c
  if r.getLsbD 0 then t ^^^ poly else t

/-- The bits of a byte in the order the rounds feed them, least significant first (R42, R81). -/
def feedBits (b : Byte) : List Bool := (List.range roundsPerByte).map b.getLsbD

/-- `ByteStep(r, b)` (R81). -/
def byteStep (r : Word) (b : Byte) : Word := (feedBits b).foldl crcRound r

/-- The bit a finalize round feeds when the register holds `r` (R82). -/
def finalizeBit (feed : FinalizeFeed) (r : Word) : Bool :=
  match feed with
  | .ones => true
  | .lowBit => r.getLsbD 0

/-- `k` finalize rounds (R82), without the complement. -/
def finalizeRounds (feed : FinalizeFeed) : Nat → Word → Word
  | 0, r => r
  | k + 1, r => finalizeRounds feed k (crcRound r (finalizeBit feed r))

/-- `Finalize(r)` (R82): 32 rounds, then the complement. -/
def finalize (feed : FinalizeFeed) (r : Word) : Word := ~~~ finalizeRounds feed finalRounds r

/-- `Entry(f, s)` (R83): all ones when INIT is set, whatever `s` is (90_conflicts.md C4), else `s`. -/
def entryValue (f : WindowFlag) (s : Word) : Word := if f.init then initValue else s

/-- The value a window with flag `f` leaves when its working register ends at `r`: finalized when FIN is set (R84,
R87). -/
def exitValue (feed : FinalizeFeed) (f : WindowFlag) (r : Word) : Word := if f.fin then finalize feed r else r

/-- `Step(s, w, f)` (R84), the window contract: entry, a left fold of `ByteStep` over the bytes, exit. -/
def windowStep (feed : FinalizeFeed) (s : Word) (w : List Byte) (f : WindowFlag) : Word :=
  exitValue feed f (w.foldl byteStep (entryValue f s))

end Sys2Proof.Machine
end

