-- ==== Sys2Proof/Machine/Window.lean ====
section
/-! DEFINITION. The window commands WBEGIN, WBYTE and WEND (spec/40_window.md R85-R87). -/

namespace Sys2Proof.Machine

/-- WBEGIN (R85): inside a window BEGIN_IN_WINDOW (R133); else the flag is latched and the working register takes its
entry value (R83). -/
def execWbegin (f : WindowFlag) (s : State) : Host.Outcome State Fault Refusal :=
  match s.phase with
  | .inWindow => .next (raiseProtocolError .beginInWindow s)
  | .idle => .next (openWindow f (entryValue f s.acc) s)

/-- WBYTE (R86): outside a window BYTE_OUTSIDE (R134); else eight rounds on the working register. -/
def execWbyte (b : Byte) (s : State) : Host.Outcome State Fault Refusal :=
  match s.phase with
  | .idle => .next (raiseProtocolError .byteOutside s)
  | .inWindow => .next (setWorking (byteStep s.fcs b) s)

/-- WEND (R87): outside a window END_OUTSIDE (R135); else `ACC` and `FCS` take the window's result, finalized when the
flag's FIN bit is set. The flag is kept (R24). -/
def execWend (s : State) : Host.Outcome State Fault Refusal :=
  match s.phase with
  | .idle => .next (raiseProtocolError .endOutside s)
  | .inWindow => .next (closeWindow (exitValue s.config.finalizeFeed s.flag s.fcs) s)

end Sys2Proof.Machine
end

