-- ==== Sys2Proof/Machine/Dispatch.lean ====
section
/-! DEFINITION. The meaning of each command, one arm per constructor of Instr. -/

namespace Sys2Proof.Machine

/-- One command, one atomic step (spec/20_memory.md R48). -/
def exec (i : Instr) (s : State) : Host.Outcome State Fault Refusal :=
  match i with
  | .nop => Sys2Proof.Machine.execNop s
  | .wbegin f => Sys2Proof.Machine.execWbegin f s
  | .wbyte b => Sys2Proof.Machine.execWbyte b s
  | .wend => Sys2Proof.Machine.execWend s
  | .clear => Sys2Proof.Machine.execClear s
  | .ldlo imm => Sys2Proof.Machine.execLdlo imm s
  | .ldhi imm => Sys2Proof.Machine.execLdhi imm s
  | .rdstate => Sys2Proof.Machine.execRdstate s
  | .rdwork => Sys2Proof.Machine.execRdwork s
  | .rdstatus => Sys2Proof.Machine.execRdstatus s

end Sys2Proof.Machine
end

