-- ==== Sys2Proof/Machine/Sequencer.lean ====
section
/-! DEFINITION. What the block does with one input (spec/00_scope.md R9, 30_encoding.md R69, 70_reset_and_hazards.md
R160-R162). -/

namespace Sys2Proof.Machine

/-- One command word: the legality check comes first (R69, R138) and raises ILLEGAL (R132); a legal command
executes. -/
def executeWord (w : Word) (s : State) : Host.Outcome State Fault Refusal :=
  match decode w with
  | .error _ => .next (raiseProtocolError .illegal s)
  | .ok i => exec i s

/-- One input, already taken from the head of `inputs`. "Commands sent while reset is held are ignored", and a command
in progress when reset arrives "is discarded: it has no effect, including on `ERR`" (R162). -/
def acceptInput (x : Input) (s : State) : Host.Outcome State Fault Refusal :=
  match x with
  | .command w => if s.resetHeld then .next s else executeWord w s
  | .assertReset _ => .next (enterReset s)
  | .releaseReset => .next (leaveReset s)
  | .takeResponse => .next (takeOldestResponse s)

/-- The state in which `w` is the next command the block takes: first in line, with reset released. -/
def withNextCommand (w : Word) (s : State) : State :=
  leaveReset (setInputs (.command w :: s.inputs) s)

end Sys2Proof.Machine
end

