-- ==== Sys2Proof/Machine/Step.lean ====
section
/-! DEFINITION. One step of the block: it takes the next input, in arrival order (spec/00_scope.md R9, 20_memory.md
R50). -/

namespace Sys2Proof.Machine

/-- With no input waiting the block holds its state (60_exceptions.md R147, 45_host_windowing.md R118: "It may pause
for any time between commands; the block has no timeout"). -/
def step (s : State) : Host.Outcome State Fault Refusal :=
  match s.inputs with
  | [] => .next s
  | x :: rest => acceptInput x (setInputs rest s)

/-- `s` with the command of the table word `w` first in line, so that `step` takes and executes exactly it (log entry
15). -/
def State.withFetchWord (s : State) (nbits w : Nat) : State := withNextCommand (tableWord nbits w) s

end Sys2Proof.Machine
end

