-- ==== Sys2Proof/Machine/Assembler.lean ====
section
/-! DEFINITION. The assembler's notation (spec/30_encoding.md R73, R74): from the text of a line to command words.
Notation only (92_eei_decisions.md D25): `step` calls nothing of this file. -/

namespace Sys2Proof.Machine

/-- Why the assembler refuses a line. "These are assembler refusals, not block behaviour" (R73). -/
inductive AsmError where
  /-- The line is not of the form R73 gives: a mnemonic and operands separated by commas. -/
  | syntaxError
  /-- The mnemonic is none of R73 and R74. -/
  | unknownMnemonic
  /-- A flag name outside the four (R73). -/
  | unknownFlag
  /-- An operand above its bound (R73). -/
  | operandRange
deriving DecidableEq, Repr

/-- The UTF-8 bytes of a text, in order (R74, `wstr`). -/
def utf8Bytes (text : List Char) : List Byte :=
  text.flatMap fun c => (String.utf8EncodeChar c).map UInt8.toBitVec

/-- A window's words: `wbegin F`, its `wbyte`s, `wend` (R74). -/
def windowWords (f : WindowFlag) (bs : List Byte) : List Word :=
  encode (.wbegin f) :: bs.map (fun b => encode (.wbyte b)) ++ [encode .wend]

/-- The words of a line whose numbers are in range: the syntax table of R73, the expansions of R74. -/
def wordsOf : AsmLine → List Word
  | .blank => []
  | .nop => [encode .nop]
  | .wbegin f => [encode (.wbegin f)]
  | .wbyte b => [encode (.wbyte (BitVec.ofNat 8 b))]
  | .wend => [encode .wend]
  | .clear => [encode .clear]
  | .ldlo imm => [encode (.ldlo (BitVec.ofNat 16 imm))]
  | .ldhi imm => [encode (.ldhi (BitVec.ofNat 16 imm))]
  | .rdstate => [encode .rdstate]
  | .rdwork => [encode .rdwork]
  | .rdstatus => [encode .rdstatus]
  | .word w => [BitVec.ofNat 32 w]
  | .ld32 v => [encode (.ldhi (BitVec.ofNat 16 (v / 2 ^ 16))), encode (.ldlo (BitVec.ofNat 16 v))]
  | .wbytes bs => bs.map fun b => encode (.wbyte (BitVec.ofNat 8 b))
  | .window f bs => windowWords f (bs.map (BitVec.ofNat 8))
  | .wstr f text => windowWords f (utf8Bytes text)

/-- A parsed line's words, or the refusal of an operand out of range (R73). -/
def assemble (line : AsmLine) : Except AsmError (List Word) :=
  if line.wellFormed then .ok (wordsOf line) else .error .operandRange

/-- What a line's text is cut into. -/
inductive Token where
  /-- A mnemonic, a flag name or a number. -/
  | word (cs : List Char)
  /-- A text between double quotes. -/
  | text (cs : List Char)
  /-- The comma between operands. -/
  | comma
deriving DecidableEq, Repr

/-- The double quote. -/
def quoteChar : Char := Char.ofNat 34

/-- A finished word, if any letter of it was read (the letters stand in reverse). -/
def flushWord (acc : List Char) (rest : List Token) : List Token :=
  if acc.isEmpty then rest else .word acc.reverse :: rest

/-- The tokens of a line: `;` begins a comment outside a quoted text; a text must be closed on its line (log entry
16). `quoted` says whether a text is open, `acc` holds the letters read so far in reverse. -/
def lexLine (quoted : Bool) (acc : List Char) : List Char → Option (List Token)
  | [] => if quoted then none else some (flushWord acc [])
  | c :: cs =>
    if quoted then
      if c = quoteChar then (lexLine false [] cs).map (Token.text acc.reverse :: ·)
      else lexLine true (c :: acc) cs
    else if c = ';' then some (flushWord acc [])
    else if c = ' ' ∨ c = Char.ofNat 9 then (lexLine false [] cs).map (flushWord acc)
    else if c = ',' then (lexLine false [] cs).map fun ts => flushWord acc (.comma :: ts)
    else if c = quoteChar then (lexLine true [] cs).map (flushWord acc)
    else lexLine false (c :: acc) cs

/-- The operands of a line: tokens separated by commas (R73). -/
def operandList : List Token → Option (List Token)
  | [] => some []
  | [.comma] => none
  | [t] => some [t]
  | t :: .comma :: rest =>
    match t, rest with
    | .comma, _ => none
    | _, [] => none
    | _, _ => (operandList rest).map (t :: ·)
  | _ :: _ => none

/-- The value of a digit in base 16. -/
def digitValue (c : Char) : Option Nat :=
  if '0' ≤ c ∧ c ≤ '9' then some (c.toNat - '0'.toNat)
  else if 'a' ≤ c ∧ c ≤ 'f' then some (c.toNat - 'a'.toNat + 10)
  else if 'A' ≤ c ∧ c ≤ 'F' then some (c.toNat - 'A'.toNat + 10)
  else none

/-- Digits in a base, after those whose value is `acc`. -/
def digitsValue (base : Nat) (acc : Nat) : List Char → Option Nat
  | [] => some acc
  | c :: cs =>
    match digitValue c with
    | some d => if d < base then digitsValue base (acc * base + d) cs else none
    | none => none

/-- A number, decimal or `0x` hex (R73). -/
def numberValue : List Char → Option Nat
  | [] => none
  | ['0', 'x'] => none
  | '0' :: 'x' :: ds => digitsValue 16 0 ds
  | ds => digitsValue 10 0 ds

/-- A numeric operand. -/
def numberOperand : Token → Except AsmError Nat
  | .word cs =>
    match numberValue cs with
    | some n => .ok n
    | none => .error .syntaxError
  | .text _ => .error .syntaxError
  | .comma => .error .syntaxError

/-- Numeric operands, in order. -/
def numberOperands : List Token → Except AsmError (List Nat)
  | [] => .ok []
  | t :: ts =>
    match numberOperand t with
    | .error e => .error e
    | .ok n =>
      match numberOperands ts with
      | .error e => .error e
      | .ok ns => .ok (n :: ns)

/-- The four flag names (R73). -/
def flagNames : List (List Char × WindowFlag) :=
  [(['o', 'n', 'l', 'y'], .only), (['f', 'i', 'r', 's', 't'], .first), (['m', 'i', 'd', 'd', 'l', 'e'], .middle),
    (['l', 'a', 's', 't'], .last)]

/-- A flag operand. -/
def flagOperand : Token → Except AsmError WindowFlag
  | .word cs =>
    match flagNames.lookup cs with
    | some f => .ok f
    | none => .error .unknownFlag
  | .text _ => .error .syntaxError
  | .comma => .error .syntaxError

/-- The mnemonics of R73 and R74. -/
inductive Keyword where
  | nop | wbegin | wbyte | wend | clear | ldlo | ldhi | rdstate | rdwork | rdstatus | word | ld32 | wbytes | window | wstr
deriving DecidableEq, Repr

/-- Their lower-case spellings (R73, R74). -/
def keywordNames : List (List Char × Keyword) :=
  [(['n', 'o', 'p'], .nop), (['w', 'b', 'e', 'g', 'i', 'n'], .wbegin), (['w', 'b', 'y', 't', 'e'], .wbyte),
    (['w', 'e', 'n', 'd'], .wend), (['c', 'l', 'e', 'a', 'r'], .clear), (['l', 'd', 'l', 'o'], .ldlo),
    (['l', 'd', 'h', 'i'], .ldhi), (['r', 'd', 's', 't', 'a', 't', 'e'], .rdstate),
    (['r', 'd', 'w', 'o', 'r', 'k'], .rdwork), (['r', 'd', 's', 't', 'a', 't', 'u', 's'], .rdstatus),
    (['.', 'w', 'o', 'r', 'd'], .word), (['l', 'd', '3', '2'], .ld32), (['w', 'b', 'y', 't', 'e', 's'], .wbytes),
    (['w', 'i', 'n', 'd', 'o', 'w'], .window), (['w', 's', 't', 'r'], .wstr)]

/-- A line without operands. -/
def noOperand (line : AsmLine) : List Token → Except AsmError AsmLine
  | [] => .ok line
  | _ :: _ => .error .syntaxError

/-- A line with one numeric operand. -/
def oneNumber (line : Nat → AsmLine) : List Token → Except AsmError AsmLine
  | [t] => (numberOperand t).map line
  | _ => .error .syntaxError

/-- A line with one flag operand. -/
def oneFlag (line : WindowFlag → AsmLine) : List Token → Except AsmError AsmLine
  | [t] => (flagOperand t).map line
  | _ => .error .syntaxError

/-- A line with a flag and numbers. -/
def flagAndNumbers (line : WindowFlag → List Nat → AsmLine) : List Token → Except AsmError AsmLine
  | [] => .error .syntaxError
  | t :: ts =>
    match flagOperand t with
    | .error e => .error e
    | .ok f => (numberOperands ts).map (line f)

/-- A line with a flag and a quoted text. -/
def flagAndText (line : WindowFlag → List Char → AsmLine) : List Token → Except AsmError AsmLine
  | [t, .text cs] => (flagOperand t).map fun f => line f cs
  | _ => .error .syntaxError

/-- The line a mnemonic makes of its operands (R73, R74). -/
def lineOf (k : Keyword) (ops : List Token) : Except AsmError AsmLine :=
  match k with
  | .nop => noOperand .nop ops
  | .wbegin => oneFlag .wbegin ops
  | .wbyte => oneNumber .wbyte ops
  | .wend => noOperand .wend ops
  | .clear => noOperand .clear ops
  | .ldlo => oneNumber .ldlo ops
  | .ldhi => oneNumber .ldhi ops
  | .rdstate => noOperand .rdstate ops
  | .rdwork => noOperand .rdwork ops
  | .rdstatus => noOperand .rdstatus ops
  | .word => oneNumber .word ops
  | .ld32 => oneNumber .ld32 ops
  | .wbytes => (numberOperands ops).map .wbytes
  | .window => flagAndNumbers .window ops
  | .wstr => flagAndText .wstr ops

/-- The line a text says (R73). -/
def parseLine (text : List Char) : Except AsmError AsmLine :=
  match lexLine false [] text with
  | none => .error .syntaxError
  | some [] => .ok .blank
  | some (.word m :: ts) =>
    match keywordNames.lookup m with
    | none => .error .unknownMnemonic
    | some k =>
      match operandList ts with
      | none => .error .syntaxError
      | some ops => lineOf k ops
  | some (_ :: _) => .error .syntaxError

/-- The words a line of source assembles to, or why the assembler refuses it (R73, R74). -/
def assembleText (text : List Char) : Except AsmError (List Word) :=
  match parseLine text with
  | .error e => .error e
  | .ok line => assemble line

end Sys2Proof.Machine
end

