-- ==== Sys2Proof/Machine/Windowing.lean ====
section
/-! DEFINITION. What a correct host sends and what checksum that yields (spec/45_host_windowing.md R110-R119). The block
enforces none of it (R117), and `step` calls nothing of this file: the functions stand here so that claims can be
stated in the spec's own terms. -/

namespace Sys2Proof.Machine

/-- One window of a partition: where it starts in the source, how long it is, its flag (R111). -/
structure Segment where
  offset : Nat
  length : Nat
  flag : WindowFlag
deriving DecidableEq, Repr

/-- The windows after the first, from position `s` (the loop of R111): MIDDLE windows of `W` while `L - W > s`, then
the LAST one. `L / W` rounds are always enough fuel when `W ≥ 1`. -/
def laterSegments (L W : Nat) : Nat → Nat → List Segment
  | 0, s => [⟨s, L - s, .last⟩]
  | fuel + 1, s =>
    if s + W < L then ⟨s, W, .middle⟩ :: laterSegments L W fuel (s + W)
    else [⟨s, L - s, .last⟩]

/-- `Partition(L, W)` (R111). `none` for W = 0, to which the spec gives no meaning: "The partition loop would not end"
(93_implementation_defined.md I5; log entry 8). -/
def partition (L W : Nat) : Option (List Segment) :=
  if W = 0 then none
  else if L ≤ W then some [⟨0, L, .only⟩]
  else some (⟨0, W, .first⟩ :: laterSegments L W (L / W) W)

/-- The bytes of a window of the source. -/
def segmentBytes (data : List Byte) (g : Segment) : List Byte := (data.drop g.offset).take g.length

/-- `Checksum(data)` with window size `W` (R114): the fold of `Step` over the partition from the initial state. -/
def checksum (feed : FinalizeFeed) (W : Nat) (data : List Byte) : Option Word :=
  (partition data.length W).map fun segs =>
    segs.foldl (fun s g => windowStep feed s (segmentBytes data g) g.flag) accReset

/-- A window as commands: `wbegin f; wbyte w0; ...; wbyte w(n-1); wend` (R88). -/
def windowCommands (f : WindowFlag) (w : List Byte) : List Instr :=
  .wbegin f :: w.map .wbyte ++ [.wend]

/-- The command sequence with which a host computes a checksum (R113); the `clear` is optional (R120). -/
def hostSequence (clearFirst : Bool) (W : Nat) (data : List Byte) : Option (List Instr) :=
  (partition data.length W).map fun segs =>
    (if clearFirst then [.clear] else [])
      ++ segs.flatMap (fun g => windowCommands g.flag (segmentBytes data g))
      ++ [.rdstatus, .rdstate]

/-- A lowercase hex digit (R119). -/
def hexDigit (d : BitVec 4) : Char :=
  if d.toNat < 10 then Char.ofNat ('0'.toNat + d.toNat) else Char.ofNat ('a'.toNat + (d.toNat - 10))

/-- The rendering of a result: 8 lowercase hex digits, most significant first, zeros kept (R45, R119). -/
def renderHex (v : Word) : List Char :=
  (List.range 8).map fun k => hexDigit (v.extractLsb' (28 - 4 * k) 4)

end Sys2Proof.Machine
end

