-- ==== Sys2Proof/Safety.lean ====
section
/-! DEFINITION. The terms claims are stated in: what counts as a safe run, the invariant, and reference forms written
from the spec's closed forms and tables, independently of the model's own definitions. -/

namespace Sys2Proof.Safety

open Sys2Proof.Machine

/-- A safe run of a host ends in a state in which no command has erred since the last CLEAR or reset: "must read ERR =
0" (spec/45_host_windowing.md R113, R117). -/
def errorFree (s : State) : Prop := s.err = false

/-- The state after an erring command (60_exceptions.md R137, R139): `ERR` is 1, the first code is kept, and nothing
else differs. -/
def recorded (code : BitVec 4) (s : State) : State :=
  { s with err := true, errcode := if s.err then s.errcode else code }

/-- `ERRCODE` is 0 exactly while `ERR` is 0, and is otherwise one of the five codes: "6-15 reserved, never produced"
(R131, 93_implementation_defined.md I10). -/
def ErrorRegistersConsistent (s : State) : Prop :=
  (s.err = false → s.errcode = 0#4) ∧ (s.err = true → 1 ≤ s.errcode.toNat ∧ s.errcode.toNat ≤ 5)

/-- While reset is held every register stays at its reset value and the response channel stays empty (R160, R162). -/
def HeldInReset (s : State) : Prop :=
  s.resetHeld = true →
    s.acc = 0#32 ∧ s.fcs = 0#32 ∧ s.phase = .idle ∧ s.flag = .middle ∧ s.err = false ∧ s.errcode = 0#4
      ∧ s.responses = []

/-- The invariant of the block. -/
def Inv (s : State) : Prop := ErrorRegistersConsistent s ∧ HeldInReset s

/-- The commands that may stand between those of a window without changing its result (40_window.md R88). -/
def passive : Instr → Bool
  | .nop => true
  | .wbegin _ => false
  | .wbyte _ => false
  | .wend => false
  | .clear => false
  | .ldlo _ => false
  | .ldhi _ => false
  | .rdstate => true
  | .rdwork => true
  | .rdstatus => true

/-- The registers of the block (10_state.md R20). -/
inductive Register where
  | acc | fcs | phase | flag | err | errcode
deriving DecidableEq, Repr

/-- The registers a command writes when it raises no error ("Written by", R21-R26). -/
def writesOf : Instr → List Register
  | .nop => []
  | .wbegin _ => [.fcs, .phase, .flag]
  | .wbyte _ => [.fcs]
  | .wend => [.acc, .fcs, .phase]
  | .clear => [.acc, .fcs, .phase, .flag, .err, .errcode]
  | .ldlo _ => [.acc]
  | .ldhi _ => [.acc]
  | .rdstate => []
  | .rdwork => []
  | .rdstatus => []

/-- The phases in which a legal command raises no error (60_exceptions.md R133-R136). -/
def legalIn (p : Phase) : Instr → Bool
  | .nop => true
  | .wbegin _ => p == .idle
  | .wbyte _ => p == .inWindow
  | .wend => p == .inWindow
  | .clear => true
  | .ldlo _ => p == .idle
  | .ldhi _ => p == .idle
  | .rdstate => true
  | .rdwork => true
  | .rdstatus => true

/-- The registers an error writes: none while `ERR` is 1 already (R137, R141). -/
def errorWrites (s : State) : List Register := if s.err then [] else [.err, .errcode]

/-- The registers an input writes in a state: a command discarded for an error writes only what the error writes, and
one sent while reset is held writes nothing (R139, R162). -/
def writtenBy (x : Input) (s : State) : List Register :=
  match x with
  | .command w =>
    if s.resetHeld then []
    else
      match decode w with
      | .ok i => if legalIn s.phase i then writesOf i else errorWrites s
      | .error _ => errorWrites s
  | .assertReset _ => [.acc, .fcs, .phase, .flag, .err, .errcode]
  | .releaseReset => []
  | .takeResponse => []

/-- The registers a read command reads (R104-R106; `STATUS` is a view of four, R27). -/
def registersRead : Instr → List Register
  | .nop => []
  | .wbegin _ => []
  | .wbyte _ => []
  | .wend => []
  | .clear => []
  | .ldlo _ => []
  | .ldhi _ => []
  | .rdstate => [.acc]
  | .rdwork => [.fcs]
  | .rdstatus => [.phase, .flag, .err, .errcode]

/-- `k` steps of the block, up to the first that answers no next state (there is none, R130). It is the host's
`Host.Core.run` of this machine (`run_eq_core_run`, Laws/Step.lean). -/
def run : Nat → State → Host.Outcome State Fault Refusal
  | 0, s => .next s
  | k + 1, s =>
    match step s with
    | .next t => run k t
    | .fault r => .fault r
    | .refused r => .refused r

/-- Commands as they arrive on the command channel. -/
def asInputs (is : List Instr) : List Input := is.map fun i => .command (encode i)

/-- A row of the opcode map (30_encoding.md R66). -/
structure Row where
  op : BitVec 4
  pattern : Word
  mask : Word
deriving DecidableEq, Repr

/-- The opcode map as R66 prints it. -/
def opcodeMap : List Row :=
  [⟨0x0#4, 0x00000000#32, 0xFFFFFFFF#32⟩, ⟨0x1#4, 0x10000000#32, 0xFCFFFFFF#32⟩,
    ⟨0x2#4, 0x20000000#32, 0xFFFFFF00#32⟩, ⟨0x3#4, 0x30000000#32, 0xFFFFFFFF#32⟩,
    ⟨0x4#4, 0x40000000#32, 0xFFFFFFFF#32⟩, ⟨0x5#4, 0x50000000#32, 0xFFFF0000#32⟩,
    ⟨0x6#4, 0x60000000#32, 0xFFFF0000#32⟩, ⟨0x7#4, 0x70000000#32, 0xFFFFFFFF#32⟩,
    ⟨0x8#4, 0x80000000#32, 0xFFFFFFFF#32⟩, ⟨0x9#4, 0x90000000#32, 0xFFFFFFFF#32⟩]

/-- A word selects a row iff `(w AND mask) = match` (R66). -/
def selects (w : Word) (r : Row) : Prop := w &&& r.mask = r.pattern

/-- The `OP` of each command (R66, R100-R106, R85-R87). -/
def opOf : Instr → BitVec 4
  | .nop => 0x0#4
  | .wbegin _ => 0x1#4
  | .wbyte _ => 0x2#4
  | .wend => 0x3#4
  | .clear => 0x4#4
  | .ldlo _ => 0x5#4
  | .ldhi _ => 0x6#4
  | .rdstate => 0x7#4
  | .rdwork => 0x8#4
  | .rdstatus => 0x9#4

/-- The closed form of a round (R80): `(r >>u 1) XOR (c << 31) XOR (r[0] ? POLY : 0)`. -/
def roundForm (r : Word) (c : Bool) : Word :=
  (r >>> 1) ^^^ ((if c then 1#32 else 0#32) <<< 31) ^^^ (if r.getLsbD 0 then 0xEDB88320#32 else 0#32)

/-- `Lin(r)` (R91): a round that feeds 0. -/
def linForm (r : Word) : Word := (r >>> 1) ^^^ (if r.getLsbD 0 then 0xEDB88320#32 else 0#32)

/-- A byte's eight bits fed in order, bit 0 first (R42, R81), in closed form. -/
def byteForm (r : Word) (b : Byte) : Word :=
  [b.getLsbD 0, b.getLsbD 1, b.getLsbD 2, b.getLsbD 3, b.getLsbD 4, b.getLsbD 5, b.getLsbD 6, b.getLsbD 7].foldl
    roundForm r

/-- One finalize round under each reading of `FINALIZE_FEED` (R82), in closed form. -/
def finalizeRoundForm (feed : FinalizeFeed) (r : Word) : Word :=
  match feed with
  | .ones => roundForm r true
  | .lowBit => roundForm r (r.getLsbD 0)

/-- `Finalize(r)` (R82): 32 rounds, then the complement, in closed form. -/
def finalizeForm (feed : FinalizeFeed) (r : Word) : Word := (finalizeRoundForm feed)^[32] r ^^^ 0xFFFFFFFF#32

/-- The standard reflected CRC-32 byte step (R95): `r <- r XOR zext_32(b)`, then eight times
`r <- (r >>u 1) XOR (r[0] ? POLY : 0)`. -/
def reflectedByte (r : Word) (b : Byte) : Word := linForm^[8] (r ^^^ b.setWidth 32)

/-- `crc32(w, c)` in zlib's terms (R95): the reflected register between two complements. -/
def zlibCrc32 (w : List Byte) (c : Word) : Word := (w.foldl reflectedByte (c ^^^ 0xFFFFFFFF#32)) ^^^ 0xFFFFFFFF#32

/-- `STATUS` by the places of its fields (10_state.md R27), as V8 of 95_test_vectors.md writes it:
`ERRCODE<<4 OR ERR<<3 OR FLAG<<1 OR PHASE`. -/
def statusForm (s : State) : Word :=
  (s.errcode.setWidth 32 <<< 4) ||| ((if s.err then 1#32 else 0#32) <<< 3) ||| (s.flag.toBits.setWidth 32 <<< 1)
    ||| (if s.phase = .inWindow then 1#32 else 0#32)

/-- The word a read command returns (R104-R106); the other commands are no reads. -/
def readWord (s : State) : Instr → Option Word
  | .nop => none
  | .wbegin _ => none
  | .wbyte _ => none
  | .wend => none
  | .clear => none
  | .ldlo _ => none
  | .ldhi _ => none
  | .rdstate => some s.acc
  | .rdwork => some s.fcs
  | .rdstatus => some (statusForm s)

/-- A number of assembler source: decimal, or `0x` hex (30_encoding.md R73). -/
def numberText (hex : Bool) (n : Nat) : List Char :=
  if hex then '0' :: 'x' :: Nat.toDigits 16 n else Nat.toDigits 10 n

/-- The four flag names (R73). -/
def flagText : WindowFlag → List Char
  | .only => ['o', 'n', 'l', 'y']
  | .first => ['f', 'i', 'r', 's', 't']
  | .middle => ['m', 'i', 'd', 'd', 'l', 'e']
  | .last => ['l', 'a', 's', 't']

/-- A text between double quotes (R74, `wstr`). -/
def quoted (text : List Char) : List Char := quoteChar :: text ++ [quoteChar]

/-- A line of source: "lower-case mnemonic; operands separated by commas" (R73). -/
def lineText (mnemonic : List Char) : List (List Char) → List Char
  | [] => mnemonic
  | o :: os => mnemonic ++ ' ' :: o ++ os.flatMap fun o => ',' :: ' ' :: o

/-- The source of a line, as the tables of R73 and R74 spell it. -/
def sourceOf (hex : Bool) : AsmLine → List Char
  | .blank => []
  | .nop => lineText ['n', 'o', 'p'] []
  | .wbegin f => lineText ['w', 'b', 'e', 'g', 'i', 'n'] [flagText f]
  | .wbyte b => lineText ['w', 'b', 'y', 't', 'e'] [numberText hex b]
  | .wend => lineText ['w', 'e', 'n', 'd'] []
  | .clear => lineText ['c', 'l', 'e', 'a', 'r'] []
  | .ldlo imm => lineText ['l', 'd', 'l', 'o'] [numberText hex imm]
  | .ldhi imm => lineText ['l', 'd', 'h', 'i'] [numberText hex imm]
  | .rdstate => lineText ['r', 'd', 's', 't', 'a', 't', 'e'] []
  | .rdwork => lineText ['r', 'd', 'w', 'o', 'r', 'k'] []
  | .rdstatus => lineText ['r', 'd', 's', 't', 'a', 't', 'u', 's'] []
  | .word w => lineText ['.', 'w', 'o', 'r', 'd'] [numberText hex w]
  | .ld32 v => lineText ['l', 'd', '3', '2'] [numberText hex v]
  | .wbytes bs => lineText ['w', 'b', 'y', 't', 'e', 's'] (bs.map (numberText hex))
  | .window f bs => lineText ['w', 'i', 'n', 'd', 'o', 'w'] (flagText f :: bs.map (numberText hex))
  | .wstr f text => lineText ['w', 's', 't', 'r'] [flagText f, quoted text]

/-- A name: some letters, none of which separates words, opens a text or begins a comment. -/
def IsName (cs : List Char) : Prop :=
  cs ≠ [] ∧ ∀ c ∈ cs, c ≠ ' ' ∧ c ≠ Char.ofNat 9 ∧ c ≠ ',' ∧ c ≠ ';' ∧ c ≠ quoteChar

/-- The UTF-8 bytes of a code point, by the ranges of the standard (log entry 18). -/
def utf8Form (n : Nat) : List Nat :=
  if n < 0x80 then [n]
  else if n < 0x800 then [0xC0 + n / 64, 0x80 + n % 64]
  else if n < 0x10000 then [0xE0 + n / 4096, 0x80 + n / 64 % 64, 0x80 + n % 64]
  else [0xF0 + n / 262144, 0x80 + n / 4096 % 64, 0x80 + n / 64 % 64, 0x80 + n % 64]

end Sys2Proof.Safety
end

