-- ==== Sys2Proof/Certificates/Slice0/Obligations.lean ====
section
/-! DEFINITION. The statements for the provers, in the order of OBLIGATIONS.json. A next state is written as a record
update of the state before: every field the update does not name (every other register, the response channel, the
configuration, the reset level, the inputs still waiting) is unchanged, which is the frame. The block has no memory
(spec/10_state.md R31), so no frame speaks of one. -/

open Sys2Proof Sys2Proof.Machine Sys2Proof.Safety

/- ## Encoding -/

/-- Decode and encode agree on every command, with every operand (30_encoding.md, sections E1 to E4). -/
def Obligations.EncodedCommandsDecodeBack : Prop :=
  ∀ i : Instr, i.wellFormed = true → decode (encode i) = .ok i

/-- Each legal word is the encoding of the one command it decodes to, so no bit of a word is ignored
(30_encoding.md, sections E1 to E4). -/
def Obligations.LegalWordsEncodeBack : Prop :=
  ∀ (w : Word) (i : Instr), decode w = .ok i → encode i = w ∧ i.wellFormed = true

/-- The opcode map (R66): a word decodes to a command of the row it selects, a word that selects a row decodes, and no
word selects two rows. -/
def Obligations.WordsDecodeToTheRowTheySelect : Prop :=
  (∀ (w : Word) (i : Instr), decode w = .ok i → ∃ r ∈ opcodeMap, r.op = opOf i ∧ selects w r)
    ∧ (∀ (w : Word) (r : Row), r ∈ opcodeMap → selects w r → ∃ i, decode w = .ok i ∧ opOf i = r.op)
    ∧ (∀ (w : Word) (r r' : Row), r ∈ opcodeMap → r' ∈ opcodeMap → selects w r → selects w r' → r = r')

/-- Operand assembly (30_encoding.md, section E2): each operand is its field's bits, bit for bit. -/
def Obligations.OperandsAreFieldsOfTheWord : Prop :=
  (∀ (w : Word) (f : WindowFlag), decode w = .ok (.wbegin f) →
      f.init = w.getLsbD 24 ∧ f.fin = w.getLsbD 25)
    ∧ (∀ (w : Word) (b : Byte), decode w = .ok (.wbyte b) → ∀ k < 8, b.getLsbD k = w.getLsbD k)
    ∧ (∀ (w : Word) (imm : Half), decode w = .ok (.ldlo imm) → ∀ k < 16, imm.getLsbD k = w.getLsbD k)
    ∧ (∀ (w : Word) (imm : Half), decode w = .ok (.ldhi imm) → ∀ k < 16, imm.getLsbD k = w.getLsbD k)

/-- Words of 95_test_vectors.md V9 decode, or are refused, as it lists them. -/
def Obligations.ListedWordsDecode : Prop :=
  decode 0x00000000#32 = .ok .nop ∧ decode 0x13000000#32 = .ok (.wbegin .only)
    ∧ decode 0x11000000#32 = .ok (.wbegin .first) ∧ decode 0x10000000#32 = .ok (.wbegin .middle)
    ∧ decode 0x12000000#32 = .ok (.wbegin .last) ∧ decode 0x200000AB#32 = .ok (.wbyte 0xAB#8)
    ∧ decode 0x30000000#32 = .ok .wend ∧ decode 0x40000000#32 = .ok .clear
    ∧ decode 0x5000FFFF#32 = .ok (.ldlo 0xFFFF#16) ∧ decode 0x60000000#32 = .ok (.ldhi 0#16)
    ∧ decode 0x70000000#32 = .ok .rdstate ∧ decode 0x80000000#32 = .ok .rdwork
    ∧ decode 0x90000000#32 = .ok .rdstatus
    ∧ decode 0xA0000000#32 = .error .reservedOpcode ∧ decode 0xFFFFFFFF#32 = .error .reservedOpcode
    ∧ decode 0x14000000#32 = .error .mustBeZeroBitSet ∧ decode 0x31000000#32 = .error .mustBeZeroBitSet

/-- The window-flag table (R67): the encodings, INIT as bit 0 and FIN as bit 1, when each is true, and that each of
the four 2-bit values is a flag. -/
def Obligations.FlagTableIsTheEncoding : Prop :=
  (WindowFlag.middle.toBits = 0b00#2 ∧ WindowFlag.first.toBits = 0b01#2 ∧ WindowFlag.last.toBits = 0b10#2
      ∧ WindowFlag.only.toBits = 0b11#2)
    ∧ (∀ f : WindowFlag, f.init = f.toBits.getLsbD 0 ∧ f.fin = f.toBits.getLsbD 1)
    ∧ (∀ f : WindowFlag, (f.init = true ↔ f = .only ∨ f = .first) ∧ (f.fin = true ↔ f = .only ∨ f = .last))
    ∧ (∀ f : WindowFlag, WindowFlag.ofBits f.toBits = f) ∧ (∀ b : BitVec 2, (WindowFlag.ofBits b).toBits = b)

/- ## The step -/

/-- When the next input is a command word that decodes to `i` and reset is not held, the step is `exec i` on the state
with that input taken. -/
def Obligations.StepRunsTheDecodedCommand : Prop :=
  ∀ (s : State) (w : Word) (i : Instr) (rest : List Input),
    s.inputs = .command w :: rest → s.resetHeld = false → decode w = .ok i →
      step s = exec i { s with inputs := rest }

/-- A word placed by `withFetchWord` is the very next command the block runs (log entry 15). -/
def Obligations.PlacedWordRunsNext : Prop :=
  ∀ (s : State) (i : Instr),
    step (s.withFetchWord 32 (encode i).toNat) = exec i { s with resetHeld := false }

/-- ILLEGAL (R70, R132): a word with a reserved opcode, or with a bit set outside its format's fields, records code 1
in either phase and does nothing else. -/
def Obligations.IllegalWordsRecordIllegal : Prop :=
  ∀ (s : State) (w : Word) (rest : List Input), s.inputs = .command w :: rest → s.resetHeld = false →
    (0xA ≤ (w.extractLsb' 28 4).toNat ∨ ∃ r ∈ opcodeMap, r.op = w.extractLsb' 28 4 ∧ ¬ selects w r) →
      step s = .next (recorded 1#4 { s with inputs := rest })

/-- With nothing on its inputs the block holds its state (60_exceptions.md section H2-H6: "It holds its state for as
long as it has no reset"; log entry 5). -/
def Obligations.StepHoldsStateWithoutInput : Prop :=
  ∀ s : State, s.inputs = [] → step s = .next s

/-- The step never stops: it answers a next state from every state (60_exceptions.md section G1, 92_eei_decisions.md
D1: "every command completes"). -/
def Obligations.StepAlwaysAnswersNext : Prop :=
  ∀ s : State, ∃ t, step s = .next t

/-- The MODEL's line of inputs (log entry 1, DESIGN CHOICE), which stands for the arrival order of 20_memory.md section C4:
a step takes exactly the head of the line; and reset keeps the inputs still waiting (log entry 6, DEDUCED). -/
def Obligations.StepTakesExactlyTheNextInput : Prop :=
  ∀ s t : State, step s = .next t → t.inputs = s.inputs.tail

/- ## Reset -/

/-- The reset values (R34), for either configuration; `State.reset` is the reset state of one of them (which one is the
model's choice: StepKeepsTheConfiguration). -/
def Obligations.ResetStateHasTheResetValues : Prop :=
  (∀ c : Config, (State.resetWith c).acc = 0x00000000#32 ∧ (State.resetWith c).fcs = 0x00000000#32
      ∧ (State.resetWith c).phase = .idle ∧ (State.resetWith c).flag.toBits = 0b00#2
      ∧ (State.resetWith c).err = false ∧ (State.resetWith c).errcode = 0#4 ∧ (State.resetWith c).responses = [])
    ∧ ∃ c : Config, State.reset = State.resetWith c

/-- Reset (R160): from every state, in either phase, the step completes and every piece of the block's state takes its
reset value. -/
def Obligations.ResetSetsEveryRegister : Prop :=
  ∀ (s : State) (p : Option Word) (rest : List Input), s.inputs = .assertReset p :: rest →
    ∃ t, step s = .next t ∧ t.acc = 0x00000000#32 ∧ t.fcs = 0x00000000#32 ∧ t.phase = .idle
      ∧ t.flag.toBits = 0b00#2 ∧ t.err = false ∧ t.errcode = 0#4 ∧ t.responses = []

/-- R162: a command in progress when reset arrives has no effect, not even on `ERR` (reset with it in progress leaves
what reset without one leaves, whatever it is); untaken response words are gone; a command sent while reset is held
changes nothing. -/
def Obligations.ResetDiscardsCommandsAndResponses : Prop :=
  (∀ (s : State) (p : Option Word) (rest : List Input),
      step { s with inputs := .assertReset p :: rest } = step { s with inputs := .assertReset none :: rest })
    ∧ (∀ (s t : State) (p : Option Word) (rest : List Input), s.inputs = .assertReset p :: rest →
        step s = .next t → t.responses = [] ∧ t.err = false)
    ∧ (∀ (s : State) (w : Word) (rest : List Input), s.inputs = .command w :: rest → s.resetHeld = true →
        step s = .next { s with inputs := rest })

/-- The MODEL's reading of the reset input and of the host's taking of a word, two interfaces of 92_eei_decisions.md D2
(log entries 3, 4 and 6): reset keeps the configuration and is held until it is released; release and taking each
change one thing. -/
def Obligations.ReleaseAndTakeChangeOneThing : Prop :=
  (∀ (s t : State) (p : Option Word) (rest : List Input), s.inputs = .assertReset p :: rest → step s = .next t →
      t.config = s.config ∧ t.resetHeld = true ∧ t.inputs = rest)
    ∧ (∀ (s : State) (rest : List Input), s.inputs = .releaseReset :: rest →
        step s = .next { s with resetHeld := false, inputs := rest })
    ∧ (∀ (s : State) (v : Word) (vs : List Word) (rest : List Input), s.inputs = .takeResponse :: rest →
        s.responses = v :: vs → step s = .next { s with responses := vs, inputs := rest })
    ∧ (∀ (s : State) (rest : List Input), s.inputs = .takeResponse :: rest → s.responses = [] →
        step s = .next { s with inputs := rest })

/- ## Each command's result, and that it completes -/

/-- WBEGIN in `Idle` (40_window.md, Commands): the flag is latched and `FCS` takes all ones for ONLY and FIRST, `ACC`
for MIDDLE and LAST. -/
def Obligations.WbeginOpensAWindow : Prop :=
  ∀ (f : WindowFlag) (s : State), s.phase = .idle →
    exec (.wbegin f) s = .next { s with flag := f, fcs := if f = .only ∨ f = .first then 0xFFFFFFFF#32 else s.acc, phase := .inWindow }

/-- WBYTE in a window (40_window.md, Commands): eight rounds on `FCS`, bit 0 of the byte first. -/
def Obligations.WbyteFeedsEightBits : Prop :=
  ∀ (b : Byte) (s : State), s.phase = .inWindow →
    exec (.wbyte b) s = .next { s with fcs := byteForm s.fcs b }

/-- WEND in a window (40_window.md, Commands): `ACC` and `FCS` take `FCS`, finalized by 32 rounds and a complement for
ONLY and LAST, under either value of `FINALIZE_FEED`; the flag is kept. -/
def Obligations.WendClosesTheWindow : Prop :=
  ∀ s : State, s.phase = .inWindow →
    exec .wend s = .next { s with acc := if s.flag = .only ∨ s.flag = .last then finalizeForm s.config.finalizeFeed s.fcs else s.fcs, fcs := if s.flag = .only ∨ s.flag = .last then finalizeForm s.config.finalizeFeed s.fcs else s.fcs, phase := .idle }

/-- NOP and CLEAR in either phase (41_control.md): NOP leaves everything; CLEAR puts every register at 0 and leaves the
response channel. -/
def Obligations.NopAndClearComplete : Prop :=
  (∀ s : State, exec .nop s = .next s)
    ∧ (∀ s : State, exec .clear s = .next { s with acc := 0x00000000#32, fcs := 0x00000000#32, phase := .idle, flag := .middle, err := false, errcode := 0#4 })

/-- LDLO and LDHI in `Idle` (41_control.md, 20_memory.md section C1): one half of `ACC` takes the immediate and the
other half is kept. -/
def Obligations.HalfwordLoadsWriteTheirHalf : Prop :=
  (∀ (imm : Half) (s : State), s.phase = .idle →
      exec (.ldlo imm) s = .next { s with acc := (s.acc &&& 0xFFFF0000#32) ||| imm.setWidth 32 })
    ∧ (∀ (imm : Half) (s : State), s.phase = .idle →
        exec (.ldhi imm) s = .next { s with acc := (s.acc &&& 0x0000FFFF#32) ||| (imm.setWidth 32 <<< 16) })

/-- RDSTATE, RDWORK and RDSTATUS in either phase (41_control.md): one word at the end of the response channel, and no
register changes. -/
def Obligations.ReadsAppendTheirWord : Prop :=
  (∀ s : State, exec .rdstate s = .next { s with responses := s.responses ++ [s.acc] })
    ∧ (∀ s : State, exec .rdwork s = .next { s with responses := s.responses ++ [s.fcs] })
    ∧ (∀ s : State, exec .rdstatus s = .next { s with responses := s.responses ++ [statusForm s] })

/-- The phase errors (R133 to R136), each recorded by the rule of R137: the code is kept only when `ERR` was 0, `ERR`
becomes 1, nothing else changes. -/
def Obligations.OutOfPhaseCommandsAreDiscarded : Prop :=
  (∀ (f : WindowFlag) (s : State), s.phase = .inWindow → exec (.wbegin f) s = .next (recorded 2#4 s))
    ∧ (∀ (b : Byte) (s : State), s.phase = .idle → exec (.wbyte b) s = .next (recorded 3#4 s))
    ∧ (∀ s : State, s.phase = .idle → exec .wend s = .next (recorded 4#4 s))
    ∧ (∀ (imm : Half) (s : State), s.phase = .inWindow → exec (.ldlo imm) s = .next (recorded 5#4 s))
    ∧ (∀ (imm : Half) (s : State), s.phase = .inWindow → exec (.ldhi imm) s = .next (recorded 5#4 s))

/- ## Each command's rule, on the raw word the block takes -/

/-- R85 on the command channel: every word whose `OP` is 1. -/
def Obligations.WbeginWordFollowsItsRule : Prop :=
  ∀ (s : State) (w : Word) (rest : List Input), s.inputs = .command w :: rest → s.resetHeld = false →
    w.extractLsb' 28 4 = 0x1#4 →
      step s = .next
        (if w &&& 0xFCFFFFFF#32 ≠ 0x10000000#32 then recorded 1#4 { s with inputs := rest }
        else if s.phase = .inWindow then recorded 2#4 { s with inputs := rest }
        else { s with flag := WindowFlag.ofBits (w.extractLsb' 24 2), fcs := if w.getLsbD 24 then 0xFFFFFFFF#32 else s.acc, phase := .inWindow, inputs := rest })

/-- R86 on the command channel: every word whose `OP` is 2. -/
def Obligations.WbyteWordFollowsItsRule : Prop :=
  ∀ (s : State) (w : Word) (rest : List Input), s.inputs = .command w :: rest → s.resetHeld = false →
    w.extractLsb' 28 4 = 0x2#4 →
      step s = .next
        (if w &&& 0xFFFFFF00#32 ≠ 0x20000000#32 then recorded 1#4 { s with inputs := rest }
        else if s.phase = .idle then recorded 3#4 { s with inputs := rest }
        else { s with fcs := byteForm s.fcs (w.setWidth 8), inputs := rest })

/-- R87 on the command channel: every word whose `OP` is 3. -/
def Obligations.WendWordFollowsItsRule : Prop :=
  ∀ (s : State) (w : Word) (rest : List Input), s.inputs = .command w :: rest → s.resetHeld = false →
    w.extractLsb' 28 4 = 0x3#4 →
      step s = .next
        (if w ≠ 0x30000000#32 then recorded 1#4 { s with inputs := rest }
        else if s.phase = .idle then recorded 4#4 { s with inputs := rest }
        else { s with acc := if s.flag.toBits.getLsbD 1 then finalizeForm s.config.finalizeFeed s.fcs else s.fcs, fcs := if s.flag.toBits.getLsbD 1 then finalizeForm s.config.finalizeFeed s.fcs else s.fcs, phase := .idle, inputs := rest })

/-- R100 and R101 on the command channel: every word whose `OP` is 0 or 4, in either phase. -/
def Obligations.NopAndClearWordsFollowTheirRules : Prop :=
  (∀ (s : State) (w : Word) (rest : List Input), s.inputs = .command w :: rest → s.resetHeld = false →
      w.extractLsb' 28 4 = 0x0#4 →
        step s = .next
          (if w ≠ 0x00000000#32 then recorded 1#4 { s with inputs := rest } else { s with inputs := rest }))
    ∧ (∀ (s : State) (w : Word) (rest : List Input), s.inputs = .command w :: rest → s.resetHeld = false →
        w.extractLsb' 28 4 = 0x4#4 →
          step s = .next
            (if w ≠ 0x40000000#32 then recorded 1#4 { s with inputs := rest }
            else { s with acc := 0x00000000#32, fcs := 0x00000000#32, phase := .idle, flag := .middle, err := false, errcode := 0#4, inputs := rest }))

/-- R102 on the command channel: every word whose `OP` is 5; and that LDLO and LDHI commute. -/
def Obligations.LdloWordFollowsItsRule : Prop :=
  (∀ (s : State) (w : Word) (rest : List Input), s.inputs = .command w :: rest → s.resetHeld = false →
      w.extractLsb' 28 4 = 0x5#4 →
        step s = .next
          (if w &&& 0xFFFF0000#32 ≠ 0x50000000#32 then recorded 1#4 { s with inputs := rest }
          else if s.phase = .inWindow then recorded 5#4 { s with inputs := rest }
          else { s with acc := s.acc.extractLsb' 16 16 ++ w.extractLsb' 0 16, inputs := rest }))
    ∧ (∀ (lo hi : Half) (s t u t' u' : State), exec (.ldlo lo) s = .next t → exec (.ldhi hi) t = .next u →
        exec (.ldhi hi) s = .next t' → exec (.ldlo lo) t' = .next u' → u = u')

/-- R103 on the command channel: every word whose `OP` is 6. -/
def Obligations.LdhiWordFollowsItsRule : Prop :=
  ∀ (s : State) (w : Word) (rest : List Input), s.inputs = .command w :: rest → s.resetHeld = false →
    w.extractLsb' 28 4 = 0x6#4 →
      step s = .next
        (if w &&& 0xFFFF0000#32 ≠ 0x60000000#32 then recorded 1#4 { s with inputs := rest }
        else if s.phase = .inWindow then recorded 5#4 { s with inputs := rest }
        else { s with acc := w.extractLsb' 0 16 ++ s.acc.extractLsb' 0 16, inputs := rest })

/-- R104, R105 and R106 on the command channel: every word whose `OP` is 7, 8 or 9, in either phase. -/
def Obligations.ReadWordsFollowTheirRules : Prop :=
  (∀ (s : State) (w : Word) (rest : List Input), s.inputs = .command w :: rest → s.resetHeld = false →
      w.extractLsb' 28 4 = 0x7#4 →
        step s = .next
          (if w ≠ 0x70000000#32 then recorded 1#4 { s with inputs := rest }
          else { s with responses := s.responses ++ [s.acc], inputs := rest }))
    ∧ (∀ (s : State) (w : Word) (rest : List Input), s.inputs = .command w :: rest → s.resetHeld = false →
        w.extractLsb' 28 4 = 0x8#4 →
          step s = .next
            (if w ≠ 0x80000000#32 then recorded 1#4 { s with inputs := rest }
            else { s with responses := s.responses ++ [s.fcs], inputs := rest }))
    ∧ (∀ (s : State) (w : Word) (rest : List Input), s.inputs = .command w :: rest → s.resetHeld = false →
        w.extractLsb' 28 4 = 0x9#4 →
          step s = .next
            (if w ≠ 0x90000000#32 then recorded 1#4 { s with inputs := rest }
            else { s with responses := s.responses ++ [statusForm s], inputs := rest }))

/- ## Rules about the whole block -/

/-- Who writes each register (10_state.md, sections B3 to B5): a step that changes `ACC`, `FCS`, `PHASE` or `FLAG`
took one of the register's writers. -/
def Obligations.RegistersChangeOnlyByTheirWriters : Prop :=
  ∀ s t : State, step s = .next t →
    (t.acc ≠ s.acc → ∃ x, s.inputs.head? = some x ∧
      (x = .command (encode .wend) ∨ x = .command (encode .clear) ∨ (∃ h, x = .command (encode (.ldlo h)))
        ∨ (∃ h, x = .command (encode (.ldhi h))) ∨ ∃ p, x = .assertReset p))
    ∧ (t.fcs ≠ s.fcs → ∃ x, s.inputs.head? = some x ∧
      ((∃ f, x = .command (encode (.wbegin f))) ∨ (∃ b, x = .command (encode (.wbyte b)))
        ∨ x = .command (encode .wend) ∨ x = .command (encode .clear) ∨ ∃ p, x = .assertReset p))
    ∧ (t.phase ≠ s.phase → ∃ x, s.inputs.head? = some x ∧
      ((∃ f, x = .command (encode (.wbegin f))) ∨ x = .command (encode .wend) ∨ x = .command (encode .clear)
        ∨ ∃ p, x = .assertReset p))
    ∧ (t.flag ≠ s.flag → ∃ x, s.inputs.head? = some x ∧
      ((∃ f, x = .command (encode (.wbegin f))) ∨ x = .command (encode .clear) ∨ ∃ p, x = .assertReset p))

/-- `ERR` is sticky (R25), and there is no return from an error (R140): only CLEAR and reset take `ERR` from 1 to 0, and
they also put `ERRCODE` and `ACC` at 0 and end any open window. Raising an error sets `ERR`; it is 0 at reset. -/
def Obligations.OnlyClearAndResetClearTheError : Prop :=
  (∀ s t : State, step s = .next t → s.err = true → t.err = false →
      (s.inputs.head? = some (.command (encode .clear)) ∨ ∃ p, s.inputs.head? = some (.assertReset p))
        ∧ t.errcode = 0#4 ∧ t.acc = 0#32 ∧ t.phase = .idle)
    ∧ (∀ s t : State, step s = .next t → s.errcode ≠ 0#4 → t.errcode = 0#4 →
        s.inputs.head? = some (.command (encode .clear)) ∨ ∃ p, s.inputs.head? = some (.assertReset p))
    ∧ (∀ s t : State, s.inputs.head? = some (.command (encode .clear)) → s.resetHeld = false → step s = .next t →
        t.err = false ∧ t.errcode = 0#4 ∧ t.acc = 0#32 ∧ t.phase = .idle)
    ∧ (∀ (s t : State) (p : Option Word), s.inputs.head? = some (.assertReset p) → step s = .next t →
        t.err = false ∧ t.errcode = 0#4 ∧ t.acc = 0#32 ∧ t.phase = .idle)
    ∧ (∀ (e : ProtocolError) (s : State), (raiseProtocolError e s).err = true)
    ∧ State.reset.err = false

/-- Nested errors (R141): while `ERR` stays 1, `ERRCODE` stays at the first code, whatever command comes. -/
def Obligations.FirstErrorCodeIsKept : Prop :=
  ∀ s t : State, step s = .next t → s.err = true → t.err = true → t.errcode = s.errcode

/-- The response channel (10_state.md, Response channel): a step leaves it, or appends exactly one word for a legal read
command, or loses its oldest word to the host, or is a reset that empties it. -/
def Obligations.ResponsesComeOnlyFromReads : Prop :=
  ∀ s t : State, step s = .next t →
    t.responses = s.responses
      ∨ ((∃ i v, s.inputs.head? = some (.command (encode i)) ∧ (i = .rdstate ∨ i = .rdwork ∨ i = .rdstatus)
          ∧ t.responses = s.responses ++ [v]))
      ∨ (s.inputs.head? = some .takeResponse ∧ t.responses = s.responses.tail)
      ∨ ((∃ p, s.inputs.head? = some (.assertReset p)) ∧ t.responses = [])

/-- Reads have no side effect (20_memory.md, section C3): a read appends the word of the register it reads and changes no
register, and a second read of the same register, with no write to it between them, appends the same word. What stands
between may be any inputs, other commands and discarded ones among them, none of which writes what is read in the state
it meets. -/
def Obligations.RepeatedReadsAgree : Prop :=
  ∀ (i : Instr) (v : Word) (s : State) (between rest : List Input),
    readWord s i = some v → s.resetHeld = false →
    s.inputs = .command (encode i) :: between ++ .command (encode i) :: rest →
    (∀ (k : Nat) (x : Input) (u : State), between[k]? = some x → Safety.run (k + 1) s = .next u →
        ∀ r ∈ registersRead i, r ∉ writtenBy x u) →
      step s = .next { s with responses := s.responses ++ [v], inputs := between ++ .command (encode i) :: rest }
        ∧ ∃ t : State, Safety.run (between.length + 1) s = .next t
          ∧ step t = .next { t with responses := t.responses ++ [v], inputs := rest }

/-- The status view (10_state.md, section B4, the table of rule R27): each field at its place, bits 31:8 always 0, all 0 after reset and after CLEAR. -/
def Obligations.StatusFieldsStandInTheirPlaces : Prop :=
  (∀ s : State, ((statusView s).getLsbD 0 = true ↔ s.phase = .inWindow)
      ∧ (statusView s).getLsbD 1 = s.flag.init ∧ (statusView s).getLsbD 2 = s.flag.fin
      ∧ (statusView s).getLsbD 3 = s.err ∧ (statusView s).extractLsb' 4 4 = s.errcode
      ∧ (statusView s).extractLsb' 8 24 = 0#24)
    ∧ statusView State.reset = 0x00000000#32
    ∧ (∀ s t : State, exec .clear s = .next t → statusView t = 0x00000000#32)

/-- CLEAR leaves no trace (70_reset_and_hazards.md, section J1, cancellation): two blocks that differ in any register,
whatever windows they have open, are in the same state after it. -/
def Obligations.ClearForgetsTheComputation : Prop :=
  ∀ s t : State, s.responses = t.responses → s.config = t.config → s.resetHeld = t.resetHeld → s.inputs = t.inputs →
    exec .clear s = exec .clear t

/-- The configuration is fixed for the life of the block (10_state.md, Configuration): no step changes it. That reset keeps
it is the model's reading (log entry 6), and that `State.reset` carries the default `Ones` of 92_eei_decisions.md D17 is the
model's choice (log entry 2). -/
def Obligations.StepKeepsTheConfiguration : Prop :=
  (∀ s t : State, step s = .next t → t.config = s.config)
    ∧ State.reset = State.resetWith { finalizeFeed := .ones }

/-- The invariant holds after reset, for either configuration. -/
def Obligations.ResetMeetsTheInvariant : Prop :=
  ∀ c : Config, Inv (State.resetWith c)

/-- Every step keeps the invariant: `ERRCODE` is 0 while `ERR` is 0 and one of the codes 1 to 5 otherwise
(60_exceptions.md section G1), and a block held in reset stays at its reset values (70_reset_and_hazards.md section
I1). -/
def Obligations.StepKeepsTheInvariant : Prop :=
  ∀ s t : State, Inv s → step s = .next t → Inv t

/- ## The algorithm -/

/-- `Round` (R80): the pseudocode's shift, insertion and conditional XOR, and the closed form. -/
def Obligations.RoundIsItsClosedForm : Prop :=
  (∀ (r : Word) (c : Bool), crcRound r c = roundForm r c)
    ∧ (∀ (r : Word) (c : Bool), (crcRound r c).getLsbD 31 = (c ^^ r.getLsbD 0))
    ∧ (∀ (r : Word) (c : Bool) (k : Nat), k < 31 →
        (crcRound r c).getLsbD k = (r.getLsbD (k + 1) ^^ (r.getLsbD 0 && (0xEDB88320#32).getLsbD k)))
    ∧ crcRound 0x00000001#32 true = 0x6DB88320#32

/-- `ByteStep` (R81) and `Finalize` (R82), in closed form, under both values of `FINALIZE_FEED`, with their
examples. -/
def Obligations.ByteStepAndFinalizeAreTheirRounds : Prop :=
  (∀ (r : Word) (b : Byte), byteStep r b = byteForm r b)
    ∧ (∀ (feed : FinalizeFeed) (r : Word), finalize feed r = finalizeForm feed r)
    ∧ byteStep 0xFFFFFFFF#32 0x48#8 = 0x65FD1072#32
    ∧ finalize .ones 0xFFFFFFFF#32 = 0xDEBB20E3#32 ∧ finalize .lowBit 0xFFFFFFFF#32 = 0x8C442D23#32

/-- `Entry` (R83) and `Step` (R84): entry by the flag, the bytes in order, `Finalize` by the flag; with the example of
R84. -/
def Obligations.WindowStepFollowsItsRule : Prop :=
  (∀ (f : WindowFlag) (s : Word), entryValue f s = if f.toBits.getLsbD 0 then 0xFFFFFFFF#32 else s)
    ∧ (∀ (feed : FinalizeFeed) (s : Word) (w : List Byte) (f : WindowFlag),
        windowStep feed s w f
          = if f.toBits.getLsbD 1 then finalizeForm feed (w.foldl byteForm (if f.toBits.getLsbD 0 then 0xFFFFFFFF#32 else s))
            else w.foldl byteForm (if f.toBits.getLsbD 0 then 0xFFFFFFFF#32 else s))
    ∧ windowStep .ones 0#32 [0x61#8, 0x62#8, 0x63#8] .only = 0xA8F6B851#32

/-- The kind of right shift is irrelevant (40_window.md Laws, "The kind of right shift is irrelevant"). -/
def Obligations.RoundIgnoresTheKindOfShift : Prop :=
  ∀ (r : Word) (c : Bool),
    crcRound r c = (if r.getLsbD 0 then setBit31 (r.sshiftRight 1) c ^^^ poly else setBit31 (r.sshiftRight 1) c)

/-- For each fed bit a round is a bijection of the register (95_test_vectors.md V1). -/
def Obligations.RoundIsABijection : Prop :=
  ∀ c : Bool, Function.Bijective fun r => crcRound r c

/-- The fed byte only enters bits 31:24 (95_test_vectors.md V2, note). -/
def Obligations.ByteStepIsAffineInTheByte : Prop :=
  ∀ (r : Word) (b : Byte), byteStep r b = byteStep r 0#8 ^^^ (b.setWidth 32 <<< 24)

/-- Under `Ones`, `Finalize` is 32 rounds that feed 0, without a complement (40_window.md Laws, "Round is affine over
GF(2)"), which are linear; so it is 0 only at 0. -/
def Obligations.FinalizeOnesIsTheZeroFeed : Prop :=
  (∀ r q : Word, linForm (r ^^^ q) = linForm r ^^^ linForm q)
    ∧ (∀ r : Word, finalize .ones r = linForm^[32] r)
    ∧ (∀ r : Word, finalize .ones r = 0#32 ↔ r = 0#32)
    ∧ finalize .ones 0x80000000#32 = 0xEDB88320#32

/-- Under `LowBit` every finalized result has bit 31 set, every checksum among them (40_window.md Laws, "Under
`FINALIZE_FEED = LowBit`"). -/
def Obligations.FinalizeLowBitSetsTheTopBit : Prop :=
  (∀ r : Word, (finalize .lowBit r).getLsbD 31 = true)
    ∧ (∀ (s : Word) (w : List Byte) (f : WindowFlag), f.fin = true → 0x80000000 ≤ (windowStep .lowBit s w f).toNat)
    ∧ (∀ (W : Nat) (data : List Byte) (c : Word), checksum .lowBit W data = some c → 0x80000000 ≤ c.toNat)

/-- A window with INIT set ignores the incoming state, and what each flag makes of an empty window (40_window.md Laws
and "The window as a command sequence"). -/
def Obligations.EntryInvertingAndEmptyWindows : Prop :=
  (∀ (feed : FinalizeFeed) (s : Word) (w : List Byte),
      windowStep feed s w .only = windowStep feed 0#32 w .only
        ∧ windowStep feed s w .first = windowStep feed 0#32 w .first)
    ∧ (∀ (feed : FinalizeFeed) (s : Word),
        windowStep feed s [] .only = finalizeForm feed 0xFFFFFFFF#32 ∧ windowStep feed s [] .first = 0xFFFFFFFF#32
          ∧ windowStep feed s [] .middle = s ∧ windowStep feed s [] .last = finalizeForm feed s)

/-- The splitting law (40_window.md Laws): cutting a window in two does not change the result, for every state and both
values of `FINALIZE_FEED`. -/
def Obligations.SplittingAWindowKeepsTheResult : Prop :=
  ∀ (feed : FinalizeFeed) (s : Word) (u v : List Byte),
    windowStep feed (windowStep feed s u .first) v .last = windowStep feed s (u ++ v) .only
      ∧ windowStep feed (windowStep feed s u .first) v .middle = windowStep feed s (u ++ v) .first
      ∧ windowStep feed (windowStep feed s u .middle) v .middle = windowStep feed s (u ++ v) .middle
      ∧ windowStep feed (windowStep feed s u .middle) v .last = windowStep feed s (u ++ v) .last

/-- Under `Ones` an ONLY window computes the standard reflected CRC-32 register started at `0xDEBB20E3`, and zlib's
`crc32` up to a complement (40_window.md Laws; the spec's author checked it on 40 inputs and did not prove it). -/
def Obligations.OnlyWindowIsTheReflectedCrc : Prop :=
  ∀ (s : Word) (w : List Byte),
    windowStep .ones s w .only = w.foldl reflectedByte 0xDEBB20E3#32
      ∧ windowStep .ones s w .only = zlibCrc32 w 0x2144DF1C#32 ^^^ 0xFFFFFFFF#32

/- ## Command sequences and the host's windows -/

/-- The window as a command sequence (40_window.md): from `Idle`, a window's commands, with any NOPs and reads among
them, leave `ACC = FCS = Step(s, w, f)`, `PHASE = Idle`, `FLAG = f`, no error, and one response word per read. -/
def Obligations.WindowCommandsComputeTheStep : Prop :=
  ∀ (s : State) (f : WindowFlag) (w : List Byte) (cs : List Instr) (rest : List Input),
    s.phase = .idle → s.resetHeld = false → s.inputs = asInputs cs ++ rest →
    cs.filter (fun i => !passive i) = .wbegin f :: w.map .wbyte ++ [.wend] →
      ∃ rs : List Word, rs.length = cs.countP (fun i => passive i && i != .nop)
        ∧ Safety.run cs.length s
          = .next { s with acc := windowStep s.config.finalizeFeed s.acc w f, fcs := windowStep s.config.finalizeFeed s.acc w f, phase := .idle, flag := f, responses := s.responses ++ rs, inputs := rest }

/-- `Partition(L, W)` (R111) in closed form: one ONLY window when `L ≤ W`; else ceil(L / W) windows, the k-th at offset
k·W, FIRST at 0, LAST at the end with length in 1..W, MIDDLE between; the windows cover the source once, in order. -/
def Obligations.PartitionCutsTheSource : Prop :=
  ∀ L W : Nat, 1 ≤ W →
    (L ≤ W → partition L W = some [⟨0, L, .only⟩])
      ∧ (W < L → partition L W = some ((List.range ((L + W - 1) / W)).map fun k =>
          if k = 0 then ⟨0, W, .first⟩
          else if k + 1 = (L + W - 1) / W then ⟨k * W, L - k * W, .last⟩
          else ⟨k * W, W, .middle⟩))
      ∧ (W < L → 1 ≤ L - ((L + W - 1) / W - 1) * W ∧ L - ((L + W - 1) / W - 1) * W ≤ W)
      ∧ (∀ (data : List Byte) (segs : List Segment), data.length = L → partition L W = some segs →
          segs.flatMap (segmentBytes data) = data)

/-- The window size never changes the checksum: it is that of one ONLY window over the whole source
(45_host_windowing.md, "the checksum does not depend on it"; CrcLib's "core correctness property"). -/
def Obligations.ChecksumDoesNotDependOnTheWindowSize : Prop :=
  ∀ (feed : FinalizeFeed) (W : Nat) (data : List Byte), 1 ≤ W →
    checksum feed W data = some (windowStep feed 0#32 data .only)

/-- A host that follows the protocol reads the checksum (45_host_windowing.md): from `Idle`, or from any state when it
clears first, its commands end with two response words, the status and the checksum, record no error of their own, and
change nothing but the registers of the computation. -/
def Obligations.HostSequenceReadsTheChecksum : Prop :=
  ∀ (s : State) (clearFirst : Bool) (W : Nat) (data : List Byte) (rest : List Input), 1 ≤ W →
    (s.phase = .idle ∨ clearFirst = true) → s.resetHeld = false →
      ∃ (cs : List Instr) (c : Word) (t : State), hostSequence clearFirst W data = some cs
        ∧ checksum s.config.finalizeFeed W data = some c
        ∧ Safety.run cs.length { s with inputs := asInputs cs ++ rest } = .next t
        ∧ t = { s with acc := c, fcs := c, phase := .idle, flag := if data.length ≤ W then .only else .last, err := s.err && !clearFirst, errcode := if clearFirst then 0#4 else s.errcode, responses := s.responses ++ [statusForm t, c], inputs := rest }
        ∧ (statusForm t).getLsbD 3 = (s.err && !clearFirst)

/-- The words of every row of R73's table and R74's expansions, and the refusal of an operand above its bound
(30_encoding.md section E6). The bounds of `.word` and `ld32` (log entry 16) and the bytes of `wstr` by the UTF-8 standard
(log entry 18) are the model's. -/
def Obligations.AssemblerFollowsTheSyntaxTable : Prop :=
  (assemble .nop = .ok [0x00000000#32] ∧ assemble (.wbegin .only) = .ok [0x13000000#32]
      ∧ assemble (.wbegin .first) = .ok [0x11000000#32] ∧ assemble (.wbegin .middle) = .ok [0x10000000#32]
      ∧ assemble (.wbegin .last) = .ok [0x12000000#32] ∧ assemble .wend = .ok [0x30000000#32]
      ∧ assemble .clear = .ok [0x40000000#32] ∧ assemble .rdstate = .ok [0x70000000#32]
      ∧ assemble .rdwork = .ok [0x80000000#32] ∧ assemble .rdstatus = .ok [0x90000000#32])
    ∧ (∀ b : Nat, assemble (.wbyte b) = if b ≤ 255 then .ok [0x20000000#32 ||| BitVec.ofNat 32 b] else .error .operandRange)
    ∧ (∀ n : Nat, assemble (.ldlo n) = if n ≤ 0xFFFF then .ok [0x50000000#32 ||| BitVec.ofNat 32 n] else .error .operandRange)
    ∧ (∀ n : Nat, assemble (.ldhi n) = if n ≤ 0xFFFF then .ok [0x60000000#32 ||| BitVec.ofNat 32 n] else .error .operandRange)
    ∧ (∀ w : Word, assemble (.word w.toNat) = .ok [w])
    ∧ (∀ v : Word, assemble (.ld32 v.toNat) = .ok [0x60000000#32 ||| (v >>> 16), 0x50000000#32 ||| (v &&& 0x0000FFFF#32)])
    ∧ (∀ n : Nat, 0xFFFFFFFF < n →
        assemble (.word n) = .error .operandRange ∧ assemble (.ld32 n) = .error .operandRange)
    ∧ (∀ bs : List Nat, assemble (.wbytes bs)
        = if ∀ b ∈ bs, b ≤ 255 then .ok (bs.map fun b => 0x20000000#32 ||| BitVec.ofNat 32 b) else .error .operandRange)
    ∧ (∀ (f : WindowFlag) (bs : List Nat), assemble (.window f bs)
        = if ∀ b ∈ bs, b ≤ 255 then .ok ((windowCommands f (bs.map (BitVec.ofNat 8))).map encode) else .error .operandRange)
    ∧ (∀ (f : WindowFlag) (bs : List Nat), (∀ b ∈ bs, b ≤ 255) → ∃ ws, assemble (.wbytes bs) = .ok ws
        ∧ assemble (.window f bs) = .ok ((0x10000000#32 ||| (f.toBits.setWidth 32 <<< 24)) :: ws ++ [0x30000000#32]))
    ∧ (∀ (f : WindowFlag) (text : List Char),
        assemble (.wstr f text) = assemble (.window f (text.flatMap fun c => utf8Form c.toNat)))

/-- `ld32 v` (30_encoding.md section E6) loads `ACC` with `v` in two steps, in `Idle`. -/
def Obligations.Ld32LoadsTheAccumulator : Prop :=
  ∀ (s : State) (v : Word) (words : List Word) (rest : List Input), s.phase = .idle → s.resetHeld = false →
    assemble (.ld32 v.toNat) = .ok words → s.inputs = words.map .command ++ rest →
      Safety.run 2 s = .next { s with acc := v, inputs := rest }

/-- The rendering of a result (45_host_windowing.md, result rendering): eight lowercase hex digits whose value, most
significant first, is the word's unsigned value. -/
def Obligations.RenderingIsEightHexDigits : Prop :=
  (∀ v : Word, (renderHex v).length = 8 ∧ digitsValue 16 0 (renderHex v) = some v.toNat
      ∧ ∀ c ∈ renderHex v, ('0' ≤ c ∧ c ≤ '9') ∨ ('a' ≤ c ∧ c ≤ 'f'))
    ∧ renderHex 0x0368592C#32 = ['0', '3', '6', '8', '5', '9', '2', 'c']

/-- From text to words (30_encoding.md section E6): the assembler reads the source of every line, its numbers in decimal or
hex, with or without a comment after it, as that line; and a flag name outside the four is refused in each of the three
places a flag stands in. That a line may be blank and that a text holds no double quote are the model's (log entry
16). -/
def Obligations.AssemblerReadsTheSourceOfALine : Prop :=
  (∀ (hex : Bool) (line : AsmLine) (comment : List Char),
      (∀ (f : WindowFlag) (text : List Char), line = .wstr f text → quoteChar ∉ text) →
        assembleText (sourceOf hex line) = assemble line
          ∧ assembleText (sourceOf hex line ++ ';' :: comment) = assemble line)
    ∧ (∀ name : List Char, IsName name → (∀ f : WindowFlag, name ≠ flagText f) →
        assembleText (lineText ['w', 'b', 'e', 'g', 'i', 'n'] [name]) = .error .unknownFlag
          ∧ (∀ (hex : Bool) (bs : List Nat),
              assembleText (lineText ['w', 'i', 'n', 'd', 'o', 'w'] (name :: bs.map (numberText hex))) = .error .unknownFlag)
          ∧ (∀ text : List Char, quoteChar ∉ text →
              assembleText (lineText ['w', 's', 't', 'r'] [name, quoted text]) = .error .unknownFlag))
end

