-- ==== Sys2Proof/Laws/Crc.lean ====
section
/-! SUPPORT. The small lemmas of the pure functions of spec/40_window.md. -/

namespace Sys2Proof.Machine

/-- Bit 31 is the inserted bit, the others are the register's (spec/00_scope.md R7). -/
theorem setBit31_getLsbD (a : Word) (c : Bool) (k : Nat) :
    (setBit31 a c).getLsbD k = if k < 31 then a.getLsbD k else (decide (k = 31) && c) := by
  have hmask : ∀ j < 31, (0x7FFFFFFF#32).getLsbD j = true := by decide
  rcases show k < 31 ∨ k = 31 ∨ 32 ≤ k by omega with hk | rfl | hk
  · simp [setBit31, hk, hmask k hk]
  · simp [setBit31]
  · have h31 : ¬ k < 31 := by omega
    have h31' : k ≠ 31 := by omega
    simp [BitVec.getLsbD_of_ge _ k hk, h31, h31']

theorem crcRound_of_bit {r : Word} (h : r.getLsbD 0 = true) (c : Bool) :
    crcRound r c = setBit31 (r >>> 1) c ^^^ poly := by
  simp [crcRound, h]

theorem crcRound_of_no_bit {r : Word} (h : r.getLsbD 0 = false) (c : Bool) :
    crcRound r c = setBit31 (r >>> 1) c := by
  simp only [crcRound, h, Bool.false_eq_true, if_false]

/-- The eight fed bits, written out. -/
theorem feedBits_eq (b : Byte) :
    feedBits b = [b.getLsbD 0, b.getLsbD 1, b.getLsbD 2, b.getLsbD 3, b.getLsbD 4, b.getLsbD 5, b.getLsbD 6, b.getLsbD 7] :=
  rfl

@[simp] theorem finalizeRounds_zero (feed : FinalizeFeed) (r : Word) : finalizeRounds feed 0 r = r := rfl

@[simp] theorem finalizeRounds_succ (feed : FinalizeFeed) (k : Nat) (r : Word) :
    finalizeRounds feed (k + 1) r = finalizeRounds feed k (crcRound r (finalizeBit feed r)) := rfl

@[simp] theorem finalizeBit_ones (r : Word) : finalizeBit .ones r = true := rfl

@[simp] theorem finalizeBit_lowBit (r : Word) : finalizeBit .lowBit r = r.getLsbD 0 := rfl

theorem entryValue_of_init {f : WindowFlag} (h : f.init = true) (s : Word) : entryValue f s = initValue := by
  simp [entryValue, h]

theorem entryValue_of_no_init {f : WindowFlag} (h : f.init = false) (s : Word) : entryValue f s = s := by
  simp [entryValue, h]

theorem exitValue_of_fin {f : WindowFlag} (h : f.fin = true) (feed : FinalizeFeed) (r : Word) :
    exitValue feed f r = finalize feed r := by
  simp [exitValue, h]

theorem exitValue_of_no_fin {f : WindowFlag} (h : f.fin = false) (feed : FinalizeFeed) (r : Word) :
    exitValue feed f r = r := by
  simp [exitValue, h]

/-- A window's value in three parts (R84). -/
theorem windowStep_eq (feed : FinalizeFeed) (s : Word) (w : List Byte) (f : WindowFlag) :
    windowStep feed s w f = exitValue feed f (w.foldl byteStep (entryValue f s)) := rfl

end Sys2Proof.Machine
end

