-- ==== Sys2Proof/Laws/Decode.lean ====
section
/-! SUPPORT. The decoder's small lemmas: a word decodes exactly when its opcode is assigned and its must-be-zero bits are
zero (spec/30_encoding.md R69). -/

namespace Sys2Proof

theorem Opcode.ofCode_code (op : Opcode) : Opcode.ofCode op.code = some op := by
  cases op <;> rfl

theorem Opcode.ofCode_eq_some {c : BitVec 4} {op : Opcode} (h : Opcode.ofCode c = some op) : c = op.code := by
  revert c op
  decide

theorem Opcode.ofCode_eq_none {c : BitVec 4} : Opcode.ofCode c = none ↔ 0xA ≤ c.toNat := by
  revert c
  decide

/-- Decoding a word whose opcode is assigned. -/
theorem decode_of_opcode {w : Word} {op : Opcode} (h : opField w = op.code) :
    decode w = if w &&& op.mask = op.pattern then .ok (op.withOperands w) else .error .mustBeZeroBitSet := by
  simp [decode, h, Opcode.ofCode_code]

/-- Decoding a word whose opcode is reserved. -/
theorem decode_of_reserved {w : Word} (h : 0xA ≤ (opField w).toNat) : decode w = .error .reservedOpcode := by
  simp [decode, Opcode.ofCode_eq_none.2 h]

/-- What a decoded command says of its word. -/
theorem decode_eq_ok {w : Word} {i : Instr} (h : decode w = .ok i) :
    ∃ op : Opcode, opField w = op.code ∧ w &&& op.mask = op.pattern ∧ i = op.withOperands w := by
  cases ho : Opcode.ofCode (opField w) with
  | none => simp [decode, ho] at h
  | some op =>
    by_cases hm : w &&& op.mask = op.pattern
    · simp only [decode, ho, hm, if_true, Except.ok.injEq] at h
      exact ⟨op, Opcode.ofCode_eq_some ho, hm, h.symm⟩
    · simp [decode, ho, hm] at h

end Sys2Proof
end

