-- ==== Sys2Proof/Laws/Operands.lean ====
section
/-! SUPPORT. The halfword placements bit by bit (spec/20_memory.md R44). -/

namespace Sys2Proof.Machine

/-- Bits 15:0 are the immediate's, the others are kept. -/
theorem withLowHalf_getLsbD (a : Word) (imm : Half) (k : Nat) :
    (withLowHalf a imm).getLsbD k = if k < 16 then imm.getLsbD k else a.getLsbD k := by
  have hmask : ∀ j < 32, (0xFFFF0000#32).getLsbD j = decide (16 ≤ j) := by decide
  rw [withLowHalf, BitVec.getLsbD_or, BitVec.getLsbD_and, BitVec.getLsbD_setWidth]
  rcases show k < 16 ∨ 16 ≤ k ∧ k < 32 ∨ 32 ≤ k by omega with hk | ⟨hk, hk'⟩ | hk
  · have h32 : k < 32 := by omega
    have h16 : ¬ 16 ≤ k := by omega
    rw [hmask k h32]
    simp [hk, h32]
  · have h16 : ¬ k < 16 := by omega
    rw [hmask k hk', BitVec.getLsbD_of_ge imm k hk]
    simp [hk, h16]
  · have h16 : ¬ k < 16 := by omega
    rw [BitVec.getLsbD_of_ge a k hk, BitVec.getLsbD_of_ge imm k (by omega)]
    simp

/-- Bits 31:16 are the immediate's, bits 15:0 are kept. -/
theorem withHighHalf_getLsbD (a : Word) (imm : Half) (k : Nat) :
    (withHighHalf a imm).getLsbD k = if k < 16 then a.getLsbD k else imm.getLsbD (k - 16) := by
  have hmask : ∀ j < 32, (0x0000FFFF#32).getLsbD j = decide (j < 16) := by decide
  rw [withHighHalf, BitVec.getLsbD_or, BitVec.getLsbD_and, BitVec.getLsbD_shiftLeft, BitVec.getLsbD_setWidth]
  rcases show k < 16 ∨ 16 ≤ k ∧ k < 32 ∨ 32 ≤ k by omega with hk | ⟨hk, hk'⟩ | hk
  · have h32 : k < 32 := by omega
    rw [hmask k h32]
    simp [hk]
  · have h16 : ¬ k < 16 := by omega
    have h32 : k - 16 < 32 := by omega
    rw [hmask k hk']
    simp [hk', h16, h32]
  · have h16 : ¬ k < 16 := by omega
    have h32 : ¬ k < 32 := by omega
    rw [BitVec.getLsbD_of_ge a k hk, BitVec.getLsbD_of_ge imm (k - 16) (by omega)]
    simp

end Sys2Proof.Machine
end

