-- ==== Sys2Proof/Laws/State.lean ====
section
/-! SUPPORT. One lemma per field per update of the state, so that no proof unfolds a record update. -/

namespace Sys2Proof.Machine

section

variable (s : State)

/-! ### raiseProtocolError -/

@[simp] theorem raiseProtocolError_acc (e : ProtocolError) : (raiseProtocolError e s).acc = s.acc := rfl
@[simp] theorem raiseProtocolError_fcs (e : ProtocolError) : (raiseProtocolError e s).fcs = s.fcs := rfl
@[simp] theorem raiseProtocolError_phase (e : ProtocolError) : (raiseProtocolError e s).phase = s.phase := rfl
@[simp] theorem raiseProtocolError_flag (e : ProtocolError) : (raiseProtocolError e s).flag = s.flag := rfl
@[simp] theorem raiseProtocolError_err (e : ProtocolError) : (raiseProtocolError e s).err = true := rfl
@[simp] theorem raiseProtocolError_errcode (e : ProtocolError) : (raiseProtocolError e s).errcode = if s.err then s.errcode else e.code := rfl
@[simp] theorem raiseProtocolError_responses (e : ProtocolError) : (raiseProtocolError e s).responses = s.responses := rfl
@[simp] theorem raiseProtocolError_config (e : ProtocolError) : (raiseProtocolError e s).config = s.config := rfl
@[simp] theorem raiseProtocolError_resetHeld (e : ProtocolError) : (raiseProtocolError e s).resetHeld = s.resetHeld := rfl
@[simp] theorem raiseProtocolError_inputs (e : ProtocolError) : (raiseProtocolError e s).inputs = s.inputs := rfl

/-! ### openWindow -/

@[simp] theorem openWindow_acc (f : WindowFlag) (r : Word) : (openWindow f r s).acc = s.acc := rfl
@[simp] theorem openWindow_fcs (f : WindowFlag) (r : Word) : (openWindow f r s).fcs = r := rfl
@[simp] theorem openWindow_phase (f : WindowFlag) (r : Word) : (openWindow f r s).phase = .inWindow := rfl
@[simp] theorem openWindow_flag (f : WindowFlag) (r : Word) : (openWindow f r s).flag = f := rfl
@[simp] theorem openWindow_err (f : WindowFlag) (r : Word) : (openWindow f r s).err = s.err := rfl
@[simp] theorem openWindow_errcode (f : WindowFlag) (r : Word) : (openWindow f r s).errcode = s.errcode := rfl
@[simp] theorem openWindow_responses (f : WindowFlag) (r : Word) : (openWindow f r s).responses = s.responses := rfl
@[simp] theorem openWindow_config (f : WindowFlag) (r : Word) : (openWindow f r s).config = s.config := rfl
@[simp] theorem openWindow_resetHeld (f : WindowFlag) (r : Word) : (openWindow f r s).resetHeld = s.resetHeld := rfl
@[simp] theorem openWindow_inputs (f : WindowFlag) (r : Word) : (openWindow f r s).inputs = s.inputs := rfl

/-! ### setWorking -/

@[simp] theorem setWorking_acc (r : Word) : (setWorking r s).acc = s.acc := rfl
@[simp] theorem setWorking_fcs (r : Word) : (setWorking r s).fcs = r := rfl
@[simp] theorem setWorking_phase (r : Word) : (setWorking r s).phase = s.phase := rfl
@[simp] theorem setWorking_flag (r : Word) : (setWorking r s).flag = s.flag := rfl
@[simp] theorem setWorking_err (r : Word) : (setWorking r s).err = s.err := rfl
@[simp] theorem setWorking_errcode (r : Word) : (setWorking r s).errcode = s.errcode := rfl
@[simp] theorem setWorking_responses (r : Word) : (setWorking r s).responses = s.responses := rfl
@[simp] theorem setWorking_config (r : Word) : (setWorking r s).config = s.config := rfl
@[simp] theorem setWorking_resetHeld (r : Word) : (setWorking r s).resetHeld = s.resetHeld := rfl
@[simp] theorem setWorking_inputs (r : Word) : (setWorking r s).inputs = s.inputs := rfl

/-! ### closeWindow -/

@[simp] theorem closeWindow_acc (v : Word) : (closeWindow v s).acc = v := rfl
@[simp] theorem closeWindow_fcs (v : Word) : (closeWindow v s).fcs = v := rfl
@[simp] theorem closeWindow_phase (v : Word) : (closeWindow v s).phase = .idle := rfl
@[simp] theorem closeWindow_flag (v : Word) : (closeWindow v s).flag = s.flag := rfl
@[simp] theorem closeWindow_err (v : Word) : (closeWindow v s).err = s.err := rfl
@[simp] theorem closeWindow_errcode (v : Word) : (closeWindow v s).errcode = s.errcode := rfl
@[simp] theorem closeWindow_responses (v : Word) : (closeWindow v s).responses = s.responses := rfl
@[simp] theorem closeWindow_config (v : Word) : (closeWindow v s).config = s.config := rfl
@[simp] theorem closeWindow_resetHeld (v : Word) : (closeWindow v s).resetHeld = s.resetHeld := rfl
@[simp] theorem closeWindow_inputs (v : Word) : (closeWindow v s).inputs = s.inputs := rfl

/-! ### setAccumulator -/

@[simp] theorem setAccumulator_acc (v : Word) : (setAccumulator v s).acc = v := rfl
@[simp] theorem setAccumulator_fcs (v : Word) : (setAccumulator v s).fcs = s.fcs := rfl
@[simp] theorem setAccumulator_phase (v : Word) : (setAccumulator v s).phase = s.phase := rfl
@[simp] theorem setAccumulator_flag (v : Word) : (setAccumulator v s).flag = s.flag := rfl
@[simp] theorem setAccumulator_err (v : Word) : (setAccumulator v s).err = s.err := rfl
@[simp] theorem setAccumulator_errcode (v : Word) : (setAccumulator v s).errcode = s.errcode := rfl
@[simp] theorem setAccumulator_responses (v : Word) : (setAccumulator v s).responses = s.responses := rfl
@[simp] theorem setAccumulator_config (v : Word) : (setAccumulator v s).config = s.config := rfl
@[simp] theorem setAccumulator_resetHeld (v : Word) : (setAccumulator v s).resetHeld = s.resetHeld := rfl
@[simp] theorem setAccumulator_inputs (v : Word) : (setAccumulator v s).inputs = s.inputs := rfl

/-! ### respond -/

@[simp] theorem respond_acc (v : Word) : (respond v s).acc = s.acc := rfl
@[simp] theorem respond_fcs (v : Word) : (respond v s).fcs = s.fcs := rfl
@[simp] theorem respond_phase (v : Word) : (respond v s).phase = s.phase := rfl
@[simp] theorem respond_flag (v : Word) : (respond v s).flag = s.flag := rfl
@[simp] theorem respond_err (v : Word) : (respond v s).err = s.err := rfl
@[simp] theorem respond_errcode (v : Word) : (respond v s).errcode = s.errcode := rfl
@[simp] theorem respond_responses (v : Word) : (respond v s).responses = s.responses ++ [v] := rfl
@[simp] theorem respond_config (v : Word) : (respond v s).config = s.config := rfl
@[simp] theorem respond_resetHeld (v : Word) : (respond v s).resetHeld = s.resetHeld := rfl
@[simp] theorem respond_inputs (v : Word) : (respond v s).inputs = s.inputs := rfl

/-! ### takeOldestResponse -/

@[simp] theorem takeOldestResponse_acc : (takeOldestResponse s).acc = s.acc := rfl
@[simp] theorem takeOldestResponse_fcs : (takeOldestResponse s).fcs = s.fcs := rfl
@[simp] theorem takeOldestResponse_phase : (takeOldestResponse s).phase = s.phase := rfl
@[simp] theorem takeOldestResponse_flag : (takeOldestResponse s).flag = s.flag := rfl
@[simp] theorem takeOldestResponse_err : (takeOldestResponse s).err = s.err := rfl
@[simp] theorem takeOldestResponse_errcode : (takeOldestResponse s).errcode = s.errcode := rfl
@[simp] theorem takeOldestResponse_responses : (takeOldestResponse s).responses = s.responses.tail := rfl
@[simp] theorem takeOldestResponse_config : (takeOldestResponse s).config = s.config := rfl
@[simp] theorem takeOldestResponse_resetHeld : (takeOldestResponse s).resetHeld = s.resetHeld := rfl
@[simp] theorem takeOldestResponse_inputs : (takeOldestResponse s).inputs = s.inputs := rfl

/-! ### clearRegisters -/

@[simp] theorem clearRegisters_acc : (clearRegisters s).acc = 0x00000000#32 := rfl
@[simp] theorem clearRegisters_fcs : (clearRegisters s).fcs = 0x00000000#32 := rfl
@[simp] theorem clearRegisters_phase : (clearRegisters s).phase = .idle := rfl
@[simp] theorem clearRegisters_flag : (clearRegisters s).flag = .middle := rfl
@[simp] theorem clearRegisters_err : (clearRegisters s).err = false := rfl
@[simp] theorem clearRegisters_errcode : (clearRegisters s).errcode = 0#4 := rfl
@[simp] theorem clearRegisters_responses : (clearRegisters s).responses = s.responses := rfl
@[simp] theorem clearRegisters_config : (clearRegisters s).config = s.config := rfl
@[simp] theorem clearRegisters_resetHeld : (clearRegisters s).resetHeld = s.resetHeld := rfl
@[simp] theorem clearRegisters_inputs : (clearRegisters s).inputs = s.inputs := rfl

/-! ### enterReset -/

@[simp] theorem enterReset_acc : (enterReset s).acc = 0x00000000#32 := rfl
@[simp] theorem enterReset_fcs : (enterReset s).fcs = 0x00000000#32 := rfl
@[simp] theorem enterReset_phase : (enterReset s).phase = .idle := rfl
@[simp] theorem enterReset_flag : (enterReset s).flag = .middle := rfl
@[simp] theorem enterReset_err : (enterReset s).err = false := rfl
@[simp] theorem enterReset_errcode : (enterReset s).errcode = 0#4 := rfl
@[simp] theorem enterReset_responses : (enterReset s).responses = [] := rfl
@[simp] theorem enterReset_config : (enterReset s).config = s.config := rfl
@[simp] theorem enterReset_resetHeld : (enterReset s).resetHeld = true := rfl
@[simp] theorem enterReset_inputs : (enterReset s).inputs = s.inputs := rfl

/-! ### leaveReset -/

@[simp] theorem leaveReset_acc : (leaveReset s).acc = s.acc := rfl
@[simp] theorem leaveReset_fcs : (leaveReset s).fcs = s.fcs := rfl
@[simp] theorem leaveReset_phase : (leaveReset s).phase = s.phase := rfl
@[simp] theorem leaveReset_flag : (leaveReset s).flag = s.flag := rfl
@[simp] theorem leaveReset_err : (leaveReset s).err = s.err := rfl
@[simp] theorem leaveReset_errcode : (leaveReset s).errcode = s.errcode := rfl
@[simp] theorem leaveReset_responses : (leaveReset s).responses = s.responses := rfl
@[simp] theorem leaveReset_config : (leaveReset s).config = s.config := rfl
@[simp] theorem leaveReset_resetHeld : (leaveReset s).resetHeld = false := rfl
@[simp] theorem leaveReset_inputs : (leaveReset s).inputs = s.inputs := rfl

/-! ### setInputs -/

@[simp] theorem setInputs_acc (xs : List Input) : (setInputs xs s).acc = s.acc := rfl
@[simp] theorem setInputs_fcs (xs : List Input) : (setInputs xs s).fcs = s.fcs := rfl
@[simp] theorem setInputs_phase (xs : List Input) : (setInputs xs s).phase = s.phase := rfl
@[simp] theorem setInputs_flag (xs : List Input) : (setInputs xs s).flag = s.flag := rfl
@[simp] theorem setInputs_err (xs : List Input) : (setInputs xs s).err = s.err := rfl
@[simp] theorem setInputs_errcode (xs : List Input) : (setInputs xs s).errcode = s.errcode := rfl
@[simp] theorem setInputs_responses (xs : List Input) : (setInputs xs s).responses = s.responses := rfl
@[simp] theorem setInputs_config (xs : List Input) : (setInputs xs s).config = s.config := rfl
@[simp] theorem setInputs_resetHeld (xs : List Input) : (setInputs xs s).resetHeld = s.resetHeld := rfl
@[simp] theorem setInputs_inputs (xs : List Input) : (setInputs xs s).inputs = xs := rfl

/-! ### withNextCommand -/

@[simp] theorem withNextCommand_acc (w : Word) : (withNextCommand w s).acc = s.acc := rfl
@[simp] theorem withNextCommand_fcs (w : Word) : (withNextCommand w s).fcs = s.fcs := rfl
@[simp] theorem withNextCommand_phase (w : Word) : (withNextCommand w s).phase = s.phase := rfl
@[simp] theorem withNextCommand_flag (w : Word) : (withNextCommand w s).flag = s.flag := rfl
@[simp] theorem withNextCommand_err (w : Word) : (withNextCommand w s).err = s.err := rfl
@[simp] theorem withNextCommand_errcode (w : Word) : (withNextCommand w s).errcode = s.errcode := rfl
@[simp] theorem withNextCommand_responses (w : Word) : (withNextCommand w s).responses = s.responses := rfl
@[simp] theorem withNextCommand_config (w : Word) : (withNextCommand w s).config = s.config := rfl
@[simp] theorem withNextCommand_resetHeld (w : Word) : (withNextCommand w s).resetHeld = false := rfl
@[simp] theorem withNextCommand_inputs (w : Word) : (withNextCommand w s).inputs = .command w :: s.inputs := rfl

end

end Sys2Proof.Machine
end

