-- ==== Sys2Proof/Laws/Ops.lean ====
section
/-! SUPPORT. For each shared operation, once, everything it does: the state it answers as one record update of the
state before. A proof that needs the whole next state cites these; one that needs a field uses Laws/State.lean. -/

namespace Sys2Proof.Machine

/-- Raising an error is `Safety.recorded` of its code (spec/60_exceptions.md R137). -/
theorem raiseProtocolError_eq_recorded (e : ProtocolError) (s : State) :
    raiseProtocolError e s = Safety.recorded e.code s := rfl

theorem openWindow_eq (f : WindowFlag) (r : Word) (s : State) :
    openWindow f r s = { s with flag := f, fcs := r, phase := .inWindow } := rfl

theorem setWorking_eq (r : Word) (s : State) : setWorking r s = { s with fcs := r } := rfl

theorem closeWindow_eq (v : Word) (s : State) :
    closeWindow v s = { s with acc := v, fcs := v, phase := .idle } := rfl

theorem setAccumulator_eq (v : Word) (s : State) : setAccumulator v s = { s with acc := v } := rfl

theorem respond_eq (v : Word) (s : State) : respond v s = { s with responses := s.responses ++ [v] } := rfl

theorem takeOldestResponse_eq (s : State) :
    takeOldestResponse s = { s with responses := s.responses.tail } := rfl

/-- CLEAR's update: the registers of reset, over the state's own channel, configuration and inputs. -/
theorem clearRegisters_eq (s : State) :
    clearRegisters s = { State.resetWith s.config with responses := s.responses, resetHeld := s.resetHeld, inputs := s.inputs } :=
  rfl

theorem enterReset_eq (s : State) :
    enterReset s = { State.resetWith s.config with resetHeld := true, inputs := s.inputs } := rfl

theorem leaveReset_eq (s : State) : leaveReset s = { s with resetHeld := false } := rfl

theorem setInputs_eq (xs : List Input) (s : State) : setInputs xs s = { s with inputs := xs } := rfl

/-- Every error's code is one of 1 to 5 (R131). -/
theorem ProtocolError.code_range (e : ProtocolError) : 1 ≤ e.code.toNat ∧ e.code.toNat ≤ 5 := by
  cases e <;> decide

/-- Raising an error makes the error registers consistent, given that they were. -/
theorem raiseProtocolError_consistent (e : ProtocolError) {s : State} (h : Safety.ErrorRegistersConsistent s) :
    Safety.ErrorRegistersConsistent (raiseProtocolError e s) := by
  refine ⟨by simp, fun _ => ?_⟩
  cases hs : s.err with
  | false => simpa [hs] using e.code_range
  | true => simpa [hs] using h.2 hs

end Sys2Proof.Machine
end

