-- ==== Sys2Proof/Laws/PerInstr.lean ====
section
/-! SUPPORT. Facts about every command as syntax, one lemma per constructor: the `OP` of its word, and that its
must-be-zero bits are zero (spec/30_encoding.md R61-R66). -/

namespace Sys2Proof.Laws

/-- The opcode of a command (R66). -/
def opcodeOf : Instr → Opcode
  | .nop => .nop
  | .wbegin _ => .wbegin
  | .wbyte _ => .wbyte
  | .wend => .wend
  | .clear => .clear
  | .ldlo _ => .ldlo
  | .ldhi _ => .ldhi
  | .rdstate => .rdstate
  | .rdwork => .rdwork
  | .rdstatus => .rdstatus

/-- The word of a command holds its opcode in bits 31:28. -/
def OpcodeField.Statement (i : Instr) : Prop := opField (encode i) = (opcodeOf i).code

theorem OpcodeField.nop : OpcodeField.Statement .nop := rfl
theorem OpcodeField.wbegin (f : WindowFlag) : OpcodeField.Statement (.wbegin f) := by cases f <;> rfl
theorem OpcodeField.wbyte (b : Byte) : OpcodeField.Statement (.wbyte b) := by
  apply BitVec.eq_of_getLsbD_eq
  intro k hk
  simp [opField, encode, opcodeOf, Opcode.code, hk, BitVec.getLsbD_of_ge b (28 + k) (by omega)]
  revert k
  decide
theorem OpcodeField.wend : OpcodeField.Statement .wend := rfl
theorem OpcodeField.clear : OpcodeField.Statement .clear := rfl
theorem OpcodeField.ldlo (imm : Half) : OpcodeField.Statement (.ldlo imm) := by
  apply BitVec.eq_of_getLsbD_eq
  intro k hk
  simp [opField, encode, opcodeOf, Opcode.code, hk, BitVec.getLsbD_of_ge imm (28 + k) (by omega)]
  revert k
  decide
theorem OpcodeField.ldhi (imm : Half) : OpcodeField.Statement (.ldhi imm) := by
  apply BitVec.eq_of_getLsbD_eq
  intro k hk
  simp [opField, encode, opcodeOf, Opcode.code, hk, BitVec.getLsbD_of_ge imm (28 + k) (by omega)]
  revert k
  decide
theorem OpcodeField.rdstate : OpcodeField.Statement .rdstate := rfl
theorem OpcodeField.rdwork : OpcodeField.Statement .rdwork := rfl
theorem OpcodeField.rdstatus : OpcodeField.Statement .rdstatus := rfl

end Sys2Proof.Laws
end

