-- ==== Sys2Proof/Laws/Step.lean ====
section
/-! SUPPORT. What a command and a step can do, said once: the inversion lemmas of `exec`, `executeWord`, `acceptInput`
and `step`. -/

namespace Sys2Proof.Machine

/-- The error a legal command raises in a phase, if any (spec/60_exceptions.md R133-R136). -/
def phaseError : Instr → Phase → Option ProtocolError
  | .wbegin _, .inWindow => some .beginInWindow
  | .wbyte _, .idle => some .byteOutside
  | .wend, .idle => some .endOutside
  | .ldlo _, .inWindow => some .loadInWindow
  | .ldhi _, .inWindow => some .loadInWindow
  | _, _ => none

/-- A command that answers a next state is one of these, with its phase and its update. -/
theorem exec_cases {i : Instr} {s t : State} (h : exec i s = .next t) :
    (i = .nop ∧ t = s)
      ∨ (∃ f, i = .wbegin f ∧ s.phase = .idle ∧ t = openWindow f (entryValue f s.acc) s)
      ∨ (∃ b, i = .wbyte b ∧ s.phase = .inWindow ∧ t = setWorking (byteStep s.fcs b) s)
      ∨ (i = .wend ∧ s.phase = .inWindow ∧ t = closeWindow (exitValue s.config.finalizeFeed s.flag s.fcs) s)
      ∨ (i = .clear ∧ t = clearRegisters s)
      ∨ (∃ imm, i = .ldlo imm ∧ s.phase = .idle ∧ t = setAccumulator (withLowHalf s.acc imm) s)
      ∨ (∃ imm, i = .ldhi imm ∧ s.phase = .idle ∧ t = setAccumulator (withHighHalf s.acc imm) s)
      ∨ (i = .rdstate ∧ t = respond s.acc s)
      ∨ (i = .rdwork ∧ t = respond s.fcs s)
      ∨ (i = .rdstatus ∧ t = respond (statusView s) s)
      ∨ (∃ e, phaseError i s.phase = some e ∧ t = raiseProtocolError e s) := by
  cases i <;> cases hp : s.phase <;>
    simp only [exec, execNop, execWbegin, execWbyte, execWend, execClear, execLdlo, execLdhi, execRdstate, execRdwork,
      execRdstatus, hp, Host.Outcome.next.injEq] at h <;> subst h <;> simp [phaseError]

/-- Every command answers a next state (R130). -/
theorem exec_answers (i : Instr) (s : State) : ∃ t, exec i s = .next t := by
  cases i <;> cases hp : s.phase <;>
    simp [exec, execNop, execWbegin, execWbyte, execWend, execClear, execLdlo, execLdhi, execRdstate, execRdwork,
      execRdstatus, hp]

/-- A command word: the illegal ones record ILLEGAL, the others execute (spec/30_encoding.md R69). -/
theorem executeWord_of_error {w : Word} {e : DecodeError} (h : decode w = .error e) (s : State) :
    executeWord w s = .next (raiseProtocolError .illegal s) := by
  simp [executeWord, h]

theorem executeWord_of_ok {w : Word} {i : Instr} (h : decode w = .ok i) (s : State) : executeWord w s = exec i s := by
  simp [executeWord, h]

/-- What one input can do. -/
theorem acceptInput_cases {x : Input} {s t : State} (h : acceptInput x s = .next t) :
    (∃ w, x = .command w ∧ s.resetHeld = true ∧ t = s)
      ∨ (∃ w e, x = .command w ∧ s.resetHeld = false ∧ decode w = .error e ∧ t = raiseProtocolError .illegal s)
      ∨ (∃ w i, x = .command w ∧ s.resetHeld = false ∧ decode w = .ok i ∧ exec i s = .next t)
      ∨ (∃ p, x = .assertReset p ∧ t = enterReset s)
      ∨ (x = .releaseReset ∧ t = leaveReset s)
      ∨ (x = .takeResponse ∧ t = takeOldestResponse s) := by
  cases x with
  | command w =>
    cases hr : s.resetHeld with
    | true =>
      simp only [acceptInput, hr, if_true, Host.Outcome.next.injEq] at h
      exact .inl ⟨w, rfl, rfl, h.symm⟩
    | false =>
      simp only [acceptInput, hr] at h
      cases hd : decode w with
      | error e =>
        simp only [executeWord, hd, Bool.false_eq_true, if_false, Host.Outcome.next.injEq] at h
        exact .inr (.inl ⟨w, e, rfl, rfl, hd, h.symm⟩)
      | ok i =>
        simp only [executeWord, hd, Bool.false_eq_true, if_false] at h
        exact .inr (.inr (.inl ⟨w, i, rfl, rfl, hd, h⟩))
  | assertReset p =>
    simp only [acceptInput, Host.Outcome.next.injEq] at h
    exact .inr (.inr (.inr (.inl ⟨p, rfl, h.symm⟩)))
  | releaseReset =>
    simp only [acceptInput, Host.Outcome.next.injEq] at h
    exact .inr (.inr (.inr (.inr (.inl ⟨rfl, h.symm⟩))))
  | takeResponse =>
    simp only [acceptInput, Host.Outcome.next.injEq] at h
    exact .inr (.inr (.inr (.inr (.inr ⟨rfl, h.symm⟩))))

theorem step_of_nil {s : State} (h : s.inputs = []) : step s = .next s := by
  simp [step, h]

theorem step_of_cons {s : State} {x : Input} {rest : List Input} (h : s.inputs = x :: rest) :
    step s = acceptInput x (setInputs rest s) := by
  simp [step, h]

/-- What a step can do: idle with nothing to take, or accept the head of the line. -/
theorem step_cases {s t : State} (h : step s = .next t) :
    (s.inputs = [] ∧ t = s) ∨ (∃ x rest, s.inputs = x :: rest ∧ acceptInput x (setInputs rest s) = .next t) := by
  cases hs : s.inputs with
  | nil =>
    rw [step_of_nil hs, Host.Outcome.next.injEq] at h
    exact .inl ⟨rfl, h.symm⟩
  | cons x rest => exact .inr ⟨x, rest, rfl, (step_of_cons hs).symm.trans h⟩

theorem run_zero (s : State) : Safety.run 0 s = .next s := rfl

theorem run_succ_of_next {s t : State} (h : step s = .next t) (k : Nat) : Safety.run (k + 1) s = Safety.run k t := by
  simp [Safety.run, h]

/-- One more step of the host's run, from a next state. -/
theorem core_run_succ_of_next (M : Host.Core) {s t : M.State} (h : M.step s = .next t) (k : Nat) :
    M.run (k + 1) s = M.run k t := by
  rw [Host.Core.run, h]

/-- Every step answers a next state, so the claims' run is the host's run of the machine. -/
theorem run_eq_core_run (k : Nat) (s t : State) (h : Safety.run k s = .next t) : Host.Core.run Sys2Proof.core k s = .next t := by
  induction k generalizing s with
  | zero => exact h
  | succ k ih =>
    cases hs : step s with
    | next u =>
      rw [run_succ_of_next hs] at h
      exact (core_run_succ_of_next Sys2Proof.core hs k).trans (ih u h)
    | fault r => simp [Safety.run, hs] at h
    | refused r => simp [Safety.run, hs] at h

end Sys2Proof.Machine
end

