-- ==== Sys2Proof/Tests/Slice0.lean ====
section
/-! SUPPORT. The model's own tests: expected values are those of spec/95_test_vectors.md (V1 to V10) and of the rules'
own examples, except where a comment says otherwise. Each machine test is one step. The `witness_` theorems show, for
each statement that has hypotheses, values that meet them all. -/

namespace Sys2Proof.Tests

open Sys2Proof.Machine Sys2Proof.Safety

/-! ## Helpers -/

/-- A state written as 95_test_vectors.md writes it, `ACC / FCS / PHASE / FLAG / ERR / ERRCODE`. -/
def st (acc fcs : Word) (p : Phase) (f : WindowFlag) (e : Bool) (code : BitVec 4) : State :=
  { State.reset with acc := acc, fcs := fcs, phase := p, flag := f, err := e, errcode := code }

/-- The same block under `FINALIZE_FEED = LowBit`. -/
def low (s : State) : State := { s with config := { finalizeFeed := .lowBit } }

/-- One step with the word `w` on the command channel; `none` where the step answers no next state. -/
def after (w : Word) (s : State) : Option State :=
  match step { s with inputs := [.command w] } with
  | .next t => some t
  | .fault _ => none
  | .refused _ => none

/-- One step with another input. -/
def afterInput (x : Input) (s : State) : Option State :=
  match step { s with inputs := [x] } with
  | .next t => some t
  | .fault _ => none
  | .refused _ => none

/-! ## Well-formedness: an ill-formed line for each check (R73) -/

theorem test_wf_refuses_wbyte_256 : (AsmLine.wbyte 256).wellFormed = false := by decide
theorem test_wf_refuses_ldlo_65536 : (AsmLine.ldlo 65536).wellFormed = false := by decide
theorem test_wf_refuses_ldhi_65536 : (AsmLine.ldhi 65536).wellFormed = false := by decide
theorem test_wf_refuses_word_33_bits : (AsmLine.word 4294967296).wellFormed = false := by decide
theorem test_wf_refuses_ld32_33_bits : (AsmLine.ld32 4294967296).wellFormed = false := by decide
theorem test_wf_refuses_wbytes_256 : (AsmLine.wbytes [1, 256]).wellFormed = false := by decide
theorem test_wf_refuses_window_256 : (AsmLine.window .only [256]).wellFormed = false := by decide
theorem test_wf_accepts_bounds :
    (AsmLine.wbyte 255).wellFormed = true ∧ (AsmLine.ldlo 65535).wellFormed = true
      ∧ (AsmLine.word 4294967295).wellFormed = true := by decide

/-! ## Decoding: a word for each constructor, written bit by bit from the formats of R62-R65 -/

theorem test_decode_nop : decode 0b0000_0000_0000_0000_0000_0000_0000_0000#32 = .ok .nop := rfl
theorem test_decode_wbegin_first : decode 0b0001_0001_0000_0000_0000_0000_0000_0000#32 = .ok (.wbegin .first) := rfl
theorem test_decode_wbegin_last : decode 0b0001_0010_0000_0000_0000_0000_0000_0000#32 = .ok (.wbegin .last) := rfl
theorem test_decode_wbyte : decode 0b0010_0000_0000_0000_0000_0000_1010_0001#32 = .ok (.wbyte 0b1010_0001#8) := rfl
theorem test_decode_wend : decode 0b0011_0000_0000_0000_0000_0000_0000_0000#32 = .ok .wend := rfl
theorem test_decode_clear : decode 0b0100_0000_0000_0000_0000_0000_0000_0000#32 = .ok .clear := rfl
theorem test_decode_ldlo : decode 0b0101_0000_0000_0000_1000_0000_0000_0011#32 = .ok (.ldlo 0x8003#16) := rfl
theorem test_decode_ldhi : decode 0b0110_0000_0000_0000_1100_0000_0000_0001#32 = .ok (.ldhi 0xC001#16) := rfl
theorem test_decode_rdstate : decode 0b0111_0000_0000_0000_0000_0000_0000_0000#32 = .ok .rdstate := rfl
theorem test_decode_rdwork : decode 0b1000_0000_0000_0000_0000_0000_0000_0000#32 = .ok .rdwork := rfl
theorem test_decode_rdstatus : decode 0b1001_0000_0000_0000_0000_0000_0000_0000#32 = .ok .rdstatus := rfl

/-- The refusals of V9, with their reasons. -/
theorem test_decode_refuses :
    [0x13000001#32, 0x14000000#32, 0x20000100#32, 0x24000000#32, 0x31000000#32, 0x04000000#32, 0x50010000#32,
        0x72000000#32].all (fun w => match decode w with | .error .mustBeZeroBitSet => true | _ => false) = true
      ∧ [0xA0000000#32, 0xB0000000#32, 0xC0000000#32, 0xD0000000#32, 0xE0000000#32, 0xF0000000#32,
        0xFFFFFFFF#32].all (fun w => match decode w with | .error .reservedOpcode => true | _ => false) = true := by
  decide

theorem test_encode_words :
    encode (.wbegin .only) = 0x13000000#32 ∧ encode (.wbyte 0xAB#8) = 0x200000AB#32
      ∧ encode (.ldlo 0xBEEF#16) = 0x5000BEEF#32 ∧ encode (.ldhi 0x1234#16) = 0x60001234#32 := by decide

theorem test_decodeTableWord :
    decodeTableWord 32 0x12000000 = some (.wbegin .last) ∧ decodeTableWord 32 0xA0000000 = none
      ∧ decodeTableWord 8 0xFF41 = none := by decide

/-! ## The algorithm (V1-V4) -/

theorem test_round :
    crcRound 0x00000001#32 false = 0xEDB88320#32 ∧ crcRound 0xFFFFFFFF#32 true = 0x12477CDF#32
      ∧ crcRound 0x80000000#32 true = 0xC0000000#32 ∧ crcRound 0xDB710641#32 false = 0x80000000#32 := by decide

theorem test_byteStep_hello : byteStep 0xFFFFFFFF#32 0x48#8 = 0x65FD1072#32 := by decide +kernel
theorem test_byteStep_order : byteStep 0x00000000#32 0x01#8 = 0x01000000#32 ∧ byteStep 0x12345678#32 0xA5#8 = 0xFBCCCD58#32 := by
  decide +kernel

theorem test_finalize_ones : finalize .ones 0x12345678#32 = 0x8E2958CE#32 ∧ finalize .ones 0#32 = 0#32 := by
  decide +kernel
theorem test_finalize_lowBit : finalize .lowBit 0xDEADBEEF#32 = 0xE4A4D7D3#32 ∧ finalize .lowBit 0#32 = 0xFFFFFFFF#32 := by
  decide +kernel

theorem test_step_abc :
    windowStep .ones 0#32 [0x61#8, 0x62#8, 0x63#8] .only = 0xA8F6B851#32
      ∧ windowStep .lowBit 0#32 [0x61#8, 0x62#8, 0x63#8] .only = 0xBAC74503#32
      ∧ windowStep .ones 0x12345678#32 [0x61#8, 0x62#8, 0x63#8] .middle = 0xF4D5569D#32 := by decide +kernel

/-! ## One step of each command (V5-V8) -/

theorem test_wbegin_middle :
    after 0x10000000#32 (st 0x12345678#32 0#32 .idle .middle false 0#4)
      = some (st 0x12345678#32 0x12345678#32 .inWindow .middle false 0#4) := by decide +kernel
theorem test_wbegin_in_window :
    after 0x11000000#32 (st 0x12345678#32 0xAAAAAAAA#32 .inWindow .last false 0#4)
      = some (st 0x12345678#32 0xAAAAAAAA#32 .inWindow .last true 2#4) := by decide +kernel

theorem test_wbyte :
    after 0x20000048#32 (st 0#32 0xFFFFFFFF#32 .inWindow .only false 0#4)
      = some (st 0#32 0x65FD1072#32 .inWindow .only false 0#4) := by decide +kernel
theorem test_wbyte_outside :
    after 0x20000041#32 (st 5#32 0#32 .idle .middle false 0#4) = some (st 5#32 0#32 .idle .middle true 3#4) := by
  decide +kernel

theorem test_wend_last :
    after 0x30000000#32 (st 0#32 0x12345678#32 .inWindow .last false 0#4)
        = some (st 0x8E2958CE#32 0x8E2958CE#32 .idle .last false 0#4)
      ∧ after 0x30000000#32 (low (st 0#32 0x12345678#32 .inWindow .last false 0#4))
        = some (low (st 0xAC1DFF49#32 0xAC1DFF49#32 .idle .last false 0#4)) := by decide +kernel
theorem test_wend_keeps_first_code :
    after 0x30000000#32 (st 0x11111111#32 0#32 .idle .middle true 3#4)
      = some (st 0x11111111#32 0#32 .idle .middle true 3#4) := by decide +kernel

theorem test_nop :
    after 0x00000000#32 (st 1#32 2#32 .inWindow .only false 0#4) = some (st 1#32 2#32 .inWindow .only false 0#4) := by
  decide +kernel
theorem test_nop_has_no_hints :
    after 0x00000001#32 (st 0#32 0#32 .idle .middle false 0#4) = some (st 0#32 0#32 .idle .middle true 1#4) := by
  decide +kernel

theorem test_clear :
    after 0x40000000#32 (st 7#32 0x65FD1072#32 .inWindow .only true 3#4) = some (st 0#32 0#32 .idle .middle false 0#4) := by
  decide +kernel
theorem test_clear_stray_bit :
    after 0x40800000#32 (st 7#32 0#32 .idle .middle false 0#4) = some (st 7#32 0#32 .idle .middle true 1#4) := by
  decide +kernel

theorem test_ldlo :
    after 0x50005678#32 (st 0x12340000#32 0#32 .idle .middle false 0#4)
      = some (st 0x12345678#32 0#32 .idle .middle false 0#4) := by decide +kernel
theorem test_ldlo_in_window :
    after 0x5000BEEF#32 (st 0x12345678#32 9#32 .inWindow .middle false 0#4)
      = some (st 0x12345678#32 9#32 .inWindow .middle true 5#4) := by decide +kernel
theorem test_ldhi :
    after 0x60001234#32 (st 0x00005678#32 0#32 .idle .middle false 0#4)
      = some (st 0x12345678#32 0#32 .idle .middle false 0#4) := by decide +kernel

theorem test_rdstate_in_window :
    after 0x70000000#32 (st 0x2EB6AD25#32 0x11111111#32 .inWindow .middle false 0#4)
      = some { st 0x2EB6AD25#32 0x11111111#32 .inWindow .middle false 0#4 with responses := [0x2EB6AD25#32] } := by
  decide +kernel
theorem test_rdwork :
    after 0x80000000#32 (st 0#32 0x63DC47ED#32 .inWindow .only false 0#4)
      = some { st 0#32 0x63DC47ED#32 .inWindow .only false 0#4 with responses := [0x63DC47ED#32] } := by decide +kernel
theorem test_rdstatus :
    after 0x90000000#32 (st 0#32 0#32 .idle .only true 3#4)
      = some { st 0#32 0#32 .idle .only true 3#4 with responses := [0x0000003E#32] } := by decide +kernel
theorem test_rdstatus_in_window :
    statusView (st 0#32 0#32 .inWindow .first false 0#4) = 0x00000003#32
      ∧ statusView (st 0#32 0#32 .inWindow .last false 0#4) = 0x00000005#32 := by decide

/-- ILLEGAL comes before the phase check (P6, step 2). -/
theorem test_illegal_has_priority :
    after 0x20000100#32 (st 0#32 0#32 .idle .middle false 0#4) = some (st 0#32 0#32 .idle .middle true 1#4) := by
  decide +kernel

/-! ## Reset and the other inputs -/

/-- R160, R162: everything at its reset value, the untaken word gone, the configuration kept. -/
theorem test_assertReset :
    afterInput (.assertReset (some 0xFFFFFFFF#32)) { low (st 1#32 2#32 .inWindow .only true 3#4) with responses := [9#32] }
      = some { State.resetWith { finalizeFeed := .lowBit } with resetHeld := true } := by decide +kernel
theorem test_command_while_held :
    after 0x13000000#32 { State.reset with resetHeld := true } = some { State.reset with resetHeld := true } := by
  decide +kernel
theorem test_releaseReset : afterInput .releaseReset { State.reset with resetHeld := true } = some State.reset := by
  decide +kernel
theorem test_takeResponse :
    afterInput .takeResponse { State.reset with responses := [1#32, 2#32] } = some { State.reset with responses := [2#32] } := by
  decide +kernel
theorem test_placed_word_runs :
    (match step (State.reset.withFetchWord 32 0x11000000) with
      | .next t => some t
      | .fault _ => none
      | .refused _ => none) = some (st 0#32 0xFFFFFFFF#32 .inWindow .first false 0#4) := by decide +kernel

/-! ## Host and assembler notation (V10, R73, R74, R119) -/

theorem test_partition_boundary :
    partition 8 4 = some [⟨0, 4, .first⟩, ⟨4, 4, .last⟩]
      ∧ partition 9 4 = some [⟨0, 4, .first⟩, ⟨4, 4, .middle⟩, ⟨8, 1, .last⟩]
      ∧ partition 0 4 = some [⟨0, 0, .only⟩] ∧ partition 5 0 = none := by decide
theorem test_partition_windowSize :
    partition 13200001 windowSize
      = some [⟨0, 6600000, .first⟩, ⟨6600000, 6600000, .middle⟩, ⟨13200000, 1, .last⟩] := by decide

/-- S7: "Hello, World!" cut into windows of 5. -/
theorem test_checksum_hello :
    checksum .ones 5 [0x48#8, 0x65#8, 0x6C#8, 0x6C#8, 0x6F#8, 0x2C#8, 0x20#8, 0x57#8, 0x6F#8, 0x72#8, 0x6C#8, 0x64#8,
      0x21#8] = some 0xD52E8B10#32 := by decide +kernel

theorem test_hostSequence_empty :
    hostSequence true windowSize [] = some [.clear, .wbegin .only, .wend, .rdstatus, .rdstate] := by decide
theorem test_renderHex : renderHex 0x0000ABCD#32 = ['0', '0', '0', '0', 'a', 'b', 'c', 'd'] := by decide

/-- What the assembler makes of a text; `none` where it refuses. -/
def assembled (text : List Char) : Option (List Word) :=
  match assembleText text with
  | .ok ws => some ws
  | .error _ => none

theorem test_assemble_wbyte_hex :
    assembled ['w', 'b', 'y', 't', 'e', ' ', '0', 'x', '4', '8', ' ', ';', ' ', 'H'] = some [0x20000048#32] := by
  decide +kernel
theorem test_assemble_window :
    assembled ['w', 'i', 'n', 'd', 'o', 'w', ' ', 'l', 'a', 's', 't', ',', ' ', '9', '7', ',', '0', 'x', 'f', 'F']
      = some [0x12000000#32, 0x20000061#32, 0x200000FF#32, 0x30000000#32] := by decide +kernel
theorem test_assemble_wstr :
    assembled ['w', 's', 't', 'r', ' ', 'o', 'n', 'l', 'y', ',', ' ', quoteChar, 'a', ';', quoteChar]
      = some [0x13000000#32, 0x20000061#32, 0x2000003B#32, 0x30000000#32] := by decide +kernel
theorem test_assemble_refuses :
    assembled ['w', 'b', 'y', 't', 'e', ' ', '2', '5', '6'] = none
      ∧ assembled ['w', 'b', 'e', 'g', 'i', 'n', ' ', 'a', 'l', 'l'] = none ∧ assembled ['N', 'O', 'P'] = none
      ∧ assembled ['w', 'e', 'n', 'd', ' ', '1'] = none := by decide +kernel

/-! ## Witnesses: each statement's hypotheses can be met -/

/-- A block in a window, with a word in its response channel. -/
def inside : State := { st 5#32 6#32 .inWindow .last false 0#4 with responses := [7#32] }

/-- A block in a window that has erred before. -/
def erred : State := st 5#32 6#32 .inWindow .only true 3#4

theorem witness_EncodedCommandsDecodeBack : (Instr.wbyte 0xFF#8).wellFormed = true := rfl
theorem witness_LegalWordsEncodeBack : decode 0x5000FFFF#32 = .ok (.ldlo 0xFFFF#16) := rfl
theorem witness_WordsDecodeToTheRowTheySelect :
    decode 0x13000000#32 = .ok (.wbegin .only)
      ∧ (⟨0x1#4, 0x10000000#32, 0xFCFFFFFF#32⟩ ∈ opcodeMap ∧ selects 0x13000000#32 ⟨0x1#4, 0x10000000#32, 0xFCFFFFFF#32⟩) :=
  ⟨rfl, by simp [opcodeMap], rfl⟩
theorem witness_OperandsAreFieldsOfTheWord :
    decode 0x12000000#32 = .ok (.wbegin .last) ∧ decode 0x20000080#32 = .ok (.wbyte 0x80#8)
      ∧ decode 0x50008000#32 = .ok (.ldlo 0x8000#16) ∧ decode 0x60008000#32 = .ok (.ldhi 0x8000#16) := ⟨rfl, rfl, rfl, rfl⟩
theorem witness_StepRunsTheDecodedCommand :
    let s := { inside with inputs := [.command 0x30000000#32] }
    s.inputs = .command 0x30000000#32 :: [] ∧ s.resetHeld = false ∧ decode 0x30000000#32 = .ok .wend := ⟨rfl, rfl, rfl⟩
/-- A reserved opcode at each end of its range, and a stray bit in an assigned row. -/
theorem witness_IllegalWordsRecordIllegal :
    let s := { inside with inputs := [.command 0xA0000000#32] }
    (s.inputs = .command 0xA0000000#32 :: [] ∧ s.resetHeld = false
        ∧ 0xA ≤ ((0xA0000000#32).extractLsb' 28 4).toNat ∧ 0xA ≤ ((0xFFFFFFFF#32).extractLsb' 28 4).toNat)
      ∧ ((⟨0x0#4, 0x00000000#32, 0xFFFFFFFF#32⟩ : Row) ∈ opcodeMap
        ∧ (0x0#4) = (0x00000001#32).extractLsb' 28 4 ∧ ¬ selects 0x00000001#32 ⟨0x0#4, 0x00000000#32, 0xFFFFFFFF#32⟩) := by
  refine ⟨⟨rfl, rfl, by decide, by decide⟩, by simp [opcodeMap], by decide, ?_⟩
  show ¬ (0x00000001#32 &&& 0xFFFFFFFF#32 = 0x00000000#32)
  decide
theorem witness_StepHoldsStateWithoutInput : State.reset.inputs = [] := rfl
theorem witness_StepTakesExactlyTheNextInput :
    ∃ t, step { inside with inputs := [.takeResponse, .command 0#32] } = .next t := ⟨_, rfl⟩
theorem witness_ResetSetsEveryRegister :
    { erred with inputs := [.assertReset none] }.inputs = .assertReset none :: [] := rfl
theorem witness_ResetDiscardsCommandsAndResponses :
    (∃ t, { inside with inputs := [.assertReset (some 0#32)] }.inputs = .assertReset (some 0#32) :: []
        ∧ step { inside with inputs := [.assertReset (some 0#32)] } = .next t)
      ∧ (let s := { State.reset with resetHeld := true, inputs := [.command 0x13000000#32] }
        s.inputs = .command 0x13000000#32 :: [] ∧ s.resetHeld = true) := ⟨⟨_, rfl, rfl⟩, rfl, rfl⟩
theorem witness_ReleaseAndTakeChangeOneThing :
    (∃ t, step { inside with inputs := [.assertReset none] } = .next t)
      ∧ { inside with inputs := [.releaseReset] }.inputs = .releaseReset :: []
      ∧ (let s := { inside with inputs := [.takeResponse] }
        s.inputs = .takeResponse :: [] ∧ s.responses = 7#32 :: [])
      ∧ (let s := { State.reset with inputs := [.takeResponse] }
        s.inputs = .takeResponse :: [] ∧ s.responses = []) := ⟨⟨_, rfl⟩, rfl, ⟨rfl, rfl⟩, rfl, rfl⟩
theorem witness_WbeginOpensAWindow : State.reset.phase = .idle := rfl
theorem witness_WbyteFeedsEightBits : inside.phase = .inWindow := rfl
theorem witness_WendClosesTheWindow : inside.phase = .inWindow ∧ inside.flag = .last := ⟨rfl, rfl⟩
theorem witness_HalfwordLoadsWriteTheirHalf : State.reset.phase = .idle := rfl
theorem witness_OutOfPhaseCommandsAreDiscarded : inside.phase = .inWindow ∧ State.reset.phase = .idle := ⟨rfl, rfl⟩

/-- The hypotheses of the statements about raw words, at the word `w` and the state `s` with it on the channel. -/
def RawWord (op : BitVec 4) (w : Word) (s : State) : Prop :=
  { s with inputs := [.command w] }.inputs = .command w :: [] ∧ { s with inputs := [.command w] }.resetHeld = false
    ∧ w.extractLsb' 28 4 = op

/-! For each statement about raw words: a legal word in a window and outside one, and a word with a stray bit. -/

theorem witness_WbeginWordFollowsItsRule :
    RawWord 0x1#4 0x13000000#32 inside
      ∧ RawWord 0x1#4 0x13000000#32 State.reset
      ∧ RawWord 0x1#4 0x13000001#32 State.reset :=
  ⟨⟨rfl, rfl, by decide⟩, ⟨rfl, rfl, by decide⟩, ⟨rfl, rfl, by decide⟩⟩
theorem witness_WbyteWordFollowsItsRule :
    RawWord 0x2#4 0x200000FF#32 inside
      ∧ RawWord 0x2#4 0x200000FF#32 State.reset
      ∧ RawWord 0x2#4 0x20000100#32 State.reset :=
  ⟨⟨rfl, rfl, by decide⟩, ⟨rfl, rfl, by decide⟩, ⟨rfl, rfl, by decide⟩⟩
theorem witness_WendWordFollowsItsRule :
    RawWord 0x3#4 0x30000000#32 inside
      ∧ RawWord 0x3#4 0x30000000#32 State.reset
      ∧ RawWord 0x3#4 0x31000000#32 State.reset :=
  ⟨⟨rfl, rfl, by decide⟩, ⟨rfl, rfl, by decide⟩, ⟨rfl, rfl, by decide⟩⟩
theorem witness_NopAndClearWordsFollowTheirRules :
    RawWord 0x0#4 0x00000000#32 inside
      ∧ RawWord 0x0#4 0x08000000#32 State.reset
      ∧ RawWord 0x4#4 0x40000000#32 inside
      ∧ RawWord 0x4#4 0x40000001#32 State.reset :=
  ⟨⟨rfl, rfl, by decide⟩, ⟨rfl, rfl, by decide⟩, ⟨rfl, rfl, by decide⟩, ⟨rfl, rfl, by decide⟩⟩
theorem witness_LdloWordFollowsItsRule :
    RawWord 0x5#4 0x5000FFFF#32 inside
      ∧ RawWord 0x5#4 0x5000FFFF#32 State.reset
      ∧ RawWord 0x5#4 0x50010000#32 State.reset
      ∧ ∃ t u t' u', exec (.ldlo 1#16) State.reset = .next t ∧ exec (.ldhi 2#16) t = .next u
        ∧ exec (.ldhi 2#16) State.reset = .next t' ∧ exec (.ldlo 1#16) t' = .next u' :=
  ⟨⟨rfl, rfl, by decide⟩, ⟨rfl, rfl, by decide⟩, ⟨rfl, rfl, by decide⟩, ⟨_, _, _, _, rfl, rfl, rfl, rfl⟩⟩
theorem witness_LdhiWordFollowsItsRule :
    RawWord 0x6#4 0x6000FFFF#32 inside
      ∧ RawWord 0x6#4 0x6000FFFF#32 State.reset
      ∧ RawWord 0x6#4 0x60010000#32 State.reset :=
  ⟨⟨rfl, rfl, by decide⟩, ⟨rfl, rfl, by decide⟩, ⟨rfl, rfl, by decide⟩⟩
theorem witness_ReadWordsFollowTheirRules :
    RawWord 0x7#4 0x70000000#32 inside
      ∧ RawWord 0x7#4 0x70000001#32 State.reset
      ∧ RawWord 0x8#4 0x80000000#32 inside
      ∧ RawWord 0x8#4 0x80000001#32 State.reset
      ∧ RawWord 0x9#4 0x90000000#32 inside
      ∧ RawWord 0x9#4 0x90000001#32 State.reset :=
  ⟨⟨rfl, rfl, by decide⟩, ⟨rfl, rfl, by decide⟩, ⟨rfl, rfl, by decide⟩, ⟨rfl, rfl, by decide⟩, ⟨rfl, rfl, by decide⟩, ⟨rfl, rfl, by decide⟩⟩

/-- WEND from a window changes `ACC`, `FCS` and `PHASE`; WBEGIN changes `FLAG`. -/
theorem witness_RegistersChangeOnlyByTheirWriters :
    (∃ t, step { inside with inputs := [.command 0x30000000#32] } = .next t ∧ t.acc ≠ inside.acc ∧ t.fcs ≠ inside.fcs
        ∧ t.phase ≠ inside.phase)
      ∧ ∃ t, step { State.reset with inputs := [.command 0x13000000#32] } = .next t ∧ t.flag ≠ State.reset.flag :=
  ⟨⟨_, rfl, by decide +kernel, by decide +kernel, by decide +kernel⟩, _, rfl, by decide +kernel⟩
theorem witness_OnlyClearAndResetClearTheError :
    (∃ t, step { erred with inputs := [.command 0x40000000#32] } = .next t ∧ erred.err = true ∧ t.err = false
        ∧ erred.errcode ≠ 0#4 ∧ t.errcode = 0#4
        ∧ { erred with inputs := [.command 0x40000000#32] }.inputs.head? = some (.command (encode .clear))
        ∧ erred.resetHeld = false)
      ∧ ∃ t, step { erred with inputs := [.assertReset none] } = .next t
        ∧ { erred with inputs := [.assertReset none] }.inputs.head? = some (.assertReset none) :=
  ⟨⟨_, rfl, rfl, rfl, by decide, rfl, rfl, rfl⟩, _, rfl, rfl⟩
theorem witness_FirstErrorCodeIsKept :
    ∃ t, step { erred with inputs := [.command 0xFFFFFFFF#32] } = .next t ∧ erred.err = true ∧ t.err = true :=
  ⟨_, rfl, rfl, rfl⟩
theorem witness_ResponsesComeOnlyFromReads : ∃ t, step { inside with inputs := [.command 0x70000000#32] } = .next t :=
  ⟨_, rfl⟩
/-- The hypotheses of RepeatedReadsAgree, for the read `i` twice with one input between. -/
def ReadTwice (i : Instr) (v : Word) (x : Input) (s : State) : Prop :=
  let t := { s with inputs := .command (encode i) :: [x] ++ .command (encode i) :: [] }
  readWord t i = some v ∧ t.resetHeld = false ∧ t.inputs = .command (encode i) :: [x] ++ .command (encode i) :: []
    ∧ ∀ (k : Nat) (y : Input) (u : State), [x][k]? = some y → Safety.run (k + 1) t = .next u →
      ∀ r ∈ registersRead i, r ∉ writtenBy y u
/-- A data byte between reads of `ACC`, a discarded WBEGIN between reads of `FCS`, an illegal word between reads of a
status that shows an error already. -/
theorem witness_RepeatedReadsAgree :
    ReadTwice .rdstate 5#32 (.command (encode (.wbyte 0x61#8))) inside
      ∧ ReadTwice .rdwork 6#32 (.command (encode (.wbegin .only))) inside
      ∧ ReadTwice .rdstatus 0x0000003F#32 (.command 0xFFFFFFFF#32) erred := by
  refine ⟨⟨rfl, rfl, rfl, ?_⟩, ⟨rfl, rfl, rfl, ?_⟩, ⟨by decide, rfl, rfl, ?_⟩⟩ <;>
  · intro k y u hk hu
    cases k with
    | zero =>
      simp only [List.getElem?_cons_zero, Option.some.injEq] at hk
      subst hk
      cases hu
      decide
    | succ k => simp at hk
theorem witness_StatusFieldsStandInTheirPlaces : ∃ t, exec .clear erred = .next t := ⟨_, rfl⟩
theorem witness_ClearForgetsTheComputation :
    let t := { inside with acc := 9#32, phase := .idle, err := true }
    inside.responses = t.responses ∧ inside.config = t.config ∧ inside.resetHeld = t.resetHeld ∧ inside.inputs = t.inputs :=
  ⟨rfl, rfl, rfl, rfl⟩
theorem witness_StepKeepsTheConfiguration : ∃ t, step { inside with inputs := [.assertReset none] } = .next t := ⟨_, rfl⟩
/-- The invariant's two parts, each at a state where its premise holds. -/
theorem witness_StepKeepsTheInvariant :
    (Inv { erred with inputs := [.command 0x20000000#32] }
        ∧ ∃ t, step { erred with inputs := [.command 0x20000000#32] } = .next t)
      ∧ (Inv { State.reset with resetHeld := true, inputs := [.command 0x13000000#32] }
        ∧ ∃ t, step { State.reset with resetHeld := true, inputs := [.command 0x13000000#32] } = .next t) := by
  refine ⟨⟨⟨?_, ?_⟩, _, rfl⟩, ⟨⟨?_, ?_⟩, _, rfl⟩⟩
  · exact ⟨(fun h => by cases h), fun _ => by decide⟩
  · exact fun h => by cases h
  · exact ⟨fun _ => rfl, fun h => by cases h⟩
  · exact fun _ => ⟨rfl, rfl, rfl, rfl, rfl, rfl, rfl⟩
theorem witness_FinalizeLowBitSetsTheTopBit :
    WindowFlag.last.fin = true ∧ ∃ c, checksum .lowBit 4 [] = some c := ⟨rfl, _, rfl⟩
theorem witness_WindowCommandsComputeTheStep :
    let cs : List Instr := [.rdstate, .wbegin .first, .nop, .wbyte 0x61#8, .rdwork, .wend]
    let s := { State.reset with inputs := asInputs cs ++ [] }
    s.phase = .idle ∧ s.resetHeld = false ∧ s.inputs = asInputs cs ++ []
      ∧ cs.filter (fun i => !passive i) = .wbegin .first :: [0x61#8].map .wbyte ++ [.wend] := ⟨rfl, rfl, rfl, by decide⟩
/-- `L ≤ W` at its boundary, `W < L` at its boundary, and a source to cover. -/
theorem witness_PartitionCutsTheSource :
    1 ≤ 4 ∧ 4 ≤ 4 ∧ 4 < 5 ∧ [1#8, 2#8, 3#8, 4#8, 5#8].length = 5
      ∧ partition 5 4 = some [⟨0, 4, .first⟩, ⟨4, 1, .last⟩] := by decide
theorem witness_ChecksumDoesNotDependOnTheWindowSize : 1 ≤ windowSize := by decide
theorem witness_HostSequenceReadsTheChecksum :
    1 ≤ windowSize ∧ (State.reset.phase = .idle ∨ false = true) ∧ (inside.phase = .idle ∨ true = true)
      ∧ State.reset.resetHeld = false ∧ inside.resetHeld = false := by decide
theorem witness_AssemblerFollowsTheSyntaxTable : (∀ b ∈ [0, 255], b ≤ 255) ∧ 0xFFFFFFFF < 4294967296 := by decide
theorem witness_Ld32LoadsTheAccumulator :
    ∃ words, assemble (.ld32 (0x12345678#32).toNat) = .ok words
      ∧ State.reset.phase = .idle ∧ State.reset.resetHeld = false
      ∧ { State.reset with inputs := words.map Input.command ++ [] }.inputs = words.map Input.command ++ [] := ⟨_, rfl, rfl, rfl, rfl⟩
theorem witness_AssemblerReadsTheSourceOfALine :
    quoteChar ∉ ['a', ';'] ∧ IsName ['a', 'l', 'l'] ∧ ∀ f : WindowFlag, ['a', 'l', 'l'] ≠ flagText f := by
  refine ⟨by decide, ⟨by decide, fun c hc => ?_⟩, fun f => ?_⟩
  · simp only [List.mem_cons, List.not_mem_nil, or_false] at hc
    rcases hc with rfl | rfl | rfl <;> decide
  · cases f <;> decide

end Sys2Proof.Tests
end

section
/-! The error registers and the reset values (spec/10_state.md R25, R34, 60_exceptions.md R140). Every step keeps
`ERR` and `ERRCODE`, records an error, or zeroes both; the last only on CLEAR and reset. -/

namespace Sys2Proof.Machine

/-! ### The word of CLEAR -/

/-- CLEAR's opcode is 4 and every other bit of its word must be zero (R62, R66), so no other word decodes to it. -/
theorem decode_eq_clear_iff (w : Word) : decode w = .ok .clear ↔ w = encode .clear := by
  constructor
  · intro h
    obtain ⟨op, _, hfixed, hop⟩ := decode_eq_ok h
    cases op with
    | clear =>
      calc w = w &&& Opcode.clear.mask := (BitVec.and_allOnes (x := w)).symm
        _ = encode .clear := hfixed
    | nop | wbegin | wbyte | wend | ldlo | ldhi | rdstate | rdwork | rdstatus => cases hop
  · rintro rfl
    rfl

/-! ### What CLEAR and the reset input leave -/

/-- What CLEAR and reset leave of an error and of the computation it struck: no error, no code, a zero accumulator, no
open window (R34, R101, R160). -/
def ErrorCleared (t : State) : Prop := t.err = false ∧ t.errcode = 0#4 ∧ t.acc = 0#32 ∧ t.phase = .idle

theorem clearRegisters_errorCleared (s : State) : ErrorCleared (clearRegisters s) := ⟨rfl, rfl, rfl, rfl⟩

theorem enterReset_errorCleared (s : State) : ErrorCleared (enterReset s) := ⟨rfl, rfl, rfl, rfl⟩

/-- A step whose input is at the head of the line. -/
theorem step_of_head {s : State} {x : Input} (h : s.inputs.head? = some x) :
    step s = acceptInput x (setInputs s.inputs.tail s) :=
  step_of_cons (List.eq_cons_of_mem_head? h)

theorem acceptInput_clear {s : State} (h : s.resetHeld = false) :
    acceptInput (.command (encode .clear)) s = .next (clearRegisters s) := by
  have hword : executeWord (encode .clear) s = exec .clear s :=
    executeWord_of_ok ((decode_eq_clear_iff _).2 rfl) s
  rw [acceptInput, h, hword]
  rfl

theorem step_clear {s : State} (hin : s.inputs.head? = some (.command (encode .clear))) (hr : s.resetHeld = false) :
    step s = .next (clearRegisters (setInputs s.inputs.tail s)) :=
  (step_of_head hin).trans (acceptInput_clear hr)

theorem step_assertReset {s : State} {p : Option Word} (hin : s.inputs.head? = some (.assertReset p)) :
    step s = .next (enterReset (setInputs s.inputs.tail s)) :=
  step_of_head hin

/-! ### What a step does to the error registers -/

theorem ProtocolError.code_ne_zero (e : ProtocolError) : e.code ≠ 0#4 := by
  cases e <;> decide

/-- Raising an error gives `ERRCODE` a code, so it never takes `ERRCODE` to 0 (R137). -/
theorem raiseProtocolError_errcode_ne_zero (e : ProtocolError) {s : State} (h : s.errcode ≠ 0#4) :
    (raiseProtocolError e s).errcode ≠ 0#4 := by
  cases hs : s.err with
  | true => simpa [hs] using h
  | false => simpa [hs] using e.code_ne_zero

/-- The updates of `ERR` and `ERRCODE` that are not a clearing one: they are kept, or an error is recorded. -/
def ErrorKeptOrRaised (s t : State) : Prop :=
  (t.err = s.err ∧ t.errcode = s.errcode) ∨ ∃ e, t = raiseProtocolError e s

theorem ErrorKeptOrRaised.err_sticky {s t : State} (h : ErrorKeptOrRaised s t) (hs : s.err = true) :
    t.err = true := by
  obtain ⟨herr, _⟩ | ⟨e, rfl⟩ := h
  · exact herr.trans hs
  · exact raiseProtocolError_err s e

theorem ErrorKeptOrRaised.errcode_ne_zero {s t : State} (h : ErrorKeptOrRaised s t) (hs : s.errcode ≠ 0#4) :
    t.errcode ≠ 0#4 := by
  obtain ⟨_, hcode⟩ | ⟨e, rfl⟩ := h
  · exact hcode ▸ hs
  · exact raiseProtocolError_errcode_ne_zero e hs

/-- Every command but CLEAR keeps the error registers or raises an error: "No command clears it as a side effect"
(R25). -/
theorem exec_clears_or_errorKeptOrRaised {i : Instr} {s t : State} (h : exec i s = .next t) :
    (i = .clear ∧ t = clearRegisters s) ∨ ErrorKeptOrRaised s t := by
  obtain ⟨_, rfl⟩ | ⟨_, _, _, rfl⟩ | ⟨_, _, _, rfl⟩ | ⟨_, _, rfl⟩ | hclear | ⟨_, _, _, rfl⟩ | ⟨_, _, _, rfl⟩
    | ⟨_, rfl⟩ | ⟨_, rfl⟩ | ⟨_, rfl⟩ | ⟨e, _, hraise⟩ := exec_cases h
  any_goals exact .inr (.inl ⟨rfl, rfl⟩)
  · exact .inl hclear
  · exact .inr (.inr ⟨e, hraise⟩)

/-- The same of an input: the reset input clears too, and nothing else outside the command channel does. -/
theorem acceptInput_clears_or_errorKeptOrRaised {x : Input} {s t : State} (h : acceptInput x s = .next t) :
    ((x = .command (encode .clear) ∨ ∃ p, x = .assertReset p) ∧ ErrorCleared t) ∨ ErrorKeptOrRaised s t := by
  obtain ⟨_, _, _, rfl⟩ | ⟨_, _, _, _, _, hraise⟩ | ⟨w, i, hx, _, hd, hexec⟩ | ⟨p, hx, rfl⟩ | ⟨_, rfl⟩ | ⟨_, rfl⟩ :=
    acceptInput_cases h
  · exact .inr (.inl ⟨rfl, rfl⟩)
  · exact .inr (.inr ⟨.illegal, hraise⟩)
  · obtain ⟨rfl, rfl⟩ | hkept := exec_clears_or_errorKeptOrRaised hexec
    · rw [(decode_eq_clear_iff w).1 hd] at hx
      exact .inl ⟨.inl hx, clearRegisters_errorCleared s⟩
    · exact .inr hkept
  · exact .inl ⟨.inr ⟨p, hx⟩, enterReset_errorCleared s⟩
  · exact .inr (.inl ⟨rfl, rfl⟩)
  · exact .inr (.inl ⟨rfl, rfl⟩)

/-- CLEAR or the reset input is next in line. -/
def TakesClearOrReset (s : State) : Prop :=
  s.inputs.head? = some (.command (encode .clear)) ∨ ∃ p, s.inputs.head? = some (.assertReset p)

/-- A step clears the error, on CLEAR or reset, or keeps or raises one, beside taking its input off the line. -/
theorem step_clears_or_errorKeptOrRaised {s t : State} (h : step s = .next t) :
    (TakesClearOrReset s ∧ ErrorCleared t) ∨ ErrorKeptOrRaised (setInputs s.inputs.tail s) t := by
  obtain ⟨_, rfl⟩ | ⟨x, rest, hin, haccept⟩ := step_cases h
  · exact .inr (.inl ⟨rfl, rfl⟩)
  · obtain ⟨hx, hcleared⟩ | hkept := acceptInput_clears_or_errorKeptOrRaised haccept
    · simp only [TakesClearOrReset, hin, List.head?_cons, Option.some.injEq]
      exact .inl ⟨hx, hcleared⟩
    · rw [hin]
      exact .inr hkept

theorem step_err_to_false {s t : State} (h : step s = .next t) (hs : s.err = true) (ht : t.err = false) :
    TakesClearOrReset s ∧ ErrorCleared t :=
  (step_clears_or_errorKeptOrRaised h).resolve_right fun hkept =>
    absurd (hkept.err_sticky hs) (ht ▸ Bool.false_ne_true)

theorem step_errcode_to_zero {s t : State} (h : step s = .next t) (hs : s.errcode ≠ 0#4) (ht : t.errcode = 0#4) :
    TakesClearOrReset s ∧ ErrorCleared t :=
  (step_clears_or_errorKeptOrRaised h).resolve_right fun hkept => hkept.errcode_ne_zero hs ht

/-- CLEAR with reset released. -/
theorem step_clear_errorCleared {s t : State} (hin : s.inputs.head? = some (.command (encode .clear)))
    (hr : s.resetHeld = false) (h : step s = .next t) : ErrorCleared t := by
  rw [step_clear hin hr, Host.Outcome.next.injEq] at h
  exact h ▸ clearRegisters_errorCleared _

/-- The reset input, whatever was in progress. -/
theorem step_assertReset_errorCleared {s t : State} {p : Option Word}
    (hin : s.inputs.head? = some (.assertReset p)) (h : step s = .next t) : ErrorCleared t := by
  rw [step_assertReset hin, Host.Outcome.next.injEq] at h
  exact h ▸ enterReset_errorCleared _

/-! ### The state after reset -/

section

variable (c : Config)

@[simp] theorem resetWith_acc : (State.resetWith c).acc = 0x00000000#32 := rfl
@[simp] theorem resetWith_fcs : (State.resetWith c).fcs = 0x00000000#32 := rfl
@[simp] theorem resetWith_phase : (State.resetWith c).phase = .idle := rfl
@[simp] theorem resetWith_flag : (State.resetWith c).flag = .middle := rfl
@[simp] theorem resetWith_err : (State.resetWith c).err = false := rfl
@[simp] theorem resetWith_errcode : (State.resetWith c).errcode = 0#4 := rfl
@[simp] theorem resetWith_responses : (State.resetWith c).responses = [] := rfl

end

theorem reset_eq_resetWith_default : State.reset = State.resetWith {} := rfl

/-! ### The obligations -/

/-- Settles O32: `step_clears_or_errorKeptOrRaised` names the two inputs that clear, and neither keeping nor raising an
error does. -/
theorem onlyClearAndResetClearTheError : Obligations.OnlyClearAndResetClearTheError :=
  ⟨fun _ _ h hs ht => (step_err_to_false h hs ht).imp_right And.right,
    fun _ _ h hs ht => (step_errcode_to_zero h hs ht).1,
    fun _ _ => step_clear_errorCleared,
    fun _ _ _ => step_assertReset_errorCleared,
    fun e s => raiseProtocolError_err s e,
    resetWith_err {}⟩

/-- Settles O13: each field of the reset state is the value of R34's table, whatever the configuration. -/
theorem resetStateHasTheResetValues : Obligations.ResetStateHasTheResetValues :=
  ⟨fun c => ⟨resetWith_acc c, resetWith_fcs c, resetWith_phase c, congrArg WindowFlag.toBits (resetWith_flag c),
      resetWith_err c, resetWith_errcode c, resetWith_responses c⟩,
    {}, reset_eq_resetWith_default⟩

end Sys2Proof.Machine
end

section
/-! The encoding tables (spec/30_encoding.md R66, R67, R69, R70). The printed opcode map has one row per opcode, and
every mask covers bits 31:28: so a row's `OP` is that of each word that selects it. The legality check is then exactly
the selection of the row of the word's opcode. -/

namespace Sys2Proof

open Safety Machine

/-! ### The window-flag table -/

@[simp] theorem WindowFlag.ofBits_toBits (f : WindowFlag) : WindowFlag.ofBits f.toBits = f := by
  cases f <;> rfl

@[simp] theorem WindowFlag.toBits_ofBits (b : BitVec 2) : (WindowFlag.ofBits b).toBits = b := by
  revert b
  decide

theorem WindowFlag.init_eq_bit (f : WindowFlag) : f.init = f.toBits.getLsbD 0 := by
  cases f <;> rfl

theorem WindowFlag.fin_eq_bit (f : WindowFlag) : f.fin = f.toBits.getLsbD 1 := by
  cases f <;> rfl

theorem WindowFlag.init_iff (f : WindowFlag) : f.init = true ↔ f = .only ∨ f = .first := by
  cases f <;> decide

theorem WindowFlag.fin_iff (f : WindowFlag) : f.fin = true ↔ f = .only ∨ f = .last := by
  cases f <;> decide

/-! ### The rows of the opcode map -/

theorem Opcode.code_injective {op op' : Opcode} (h : op.code = op'.code) : op = op' :=
  Option.some.inj <|
    calc some op = Opcode.ofCode op.code := (Opcode.ofCode_code op).symm
      _ = Opcode.ofCode op'.code := congrArg Opcode.ofCode h
      _ = some op' := Opcode.ofCode_code op'

@[simp] theorem opOf_withOperands (w : Word) (op : Opcode) : opOf (op.withOperands w) = op.code := by
  cases op <;> rfl

/-- The row the decoder's own columns give an opcode; `opcodeMap_eq_map_row` ties it to the printed map. -/
def Opcode.row (op : Opcode) : Row := ⟨op.code, op.pattern, op.mask⟩

theorem selects_row_iff (w : Word) (op : Opcode) : selects w op.row ↔ w &&& op.mask = op.pattern := Iff.rfl

/-- The ten opcodes, in the order of the map. -/
def Opcode.all : List Opcode :=
  [.nop, .wbegin, .wbyte, .wend, .clear, .ldlo, .ldhi, .rdstate, .rdwork, .rdstatus]

theorem Opcode.mem_all (op : Opcode) : op ∈ Opcode.all := by
  cases op <;> decide

/-- The printed map (R66) is the decoder's columns, row for row. -/
theorem opcodeMap_eq_map_row : opcodeMap = Opcode.all.map Opcode.row := rfl

theorem mem_opcodeMap_iff (r : Row) : r ∈ opcodeMap ↔ ∃ op : Opcode, r = op.row := by
  simp only [opcodeMap_eq_map_row, List.mem_map, Opcode.mem_all, true_and, eq_comm]

/-! ### What selecting a row says of a word -/

theorem opField_and (w m : Word) : opField (w &&& m) = opField w &&& opField m :=
  BitVec.extractLsb'_and

/-- Every mask covers bits 31:28 (R66). -/
theorem Opcode.opField_mask (op : Opcode) : opField op.mask = BitVec.allOnes 4 := by
  cases op <;> rfl

theorem Opcode.opField_pattern (op : Opcode) : opField op.pattern = op.code := by
  cases op <;> rfl

/-- A word that selects a row has the row's `OP`. -/
theorem opField_of_selects {w : Word} {op : Opcode} (h : selects w op.row) : opField w = op.code :=
  calc opField w = opField (w &&& op.mask) := by rw [opField_and, op.opField_mask, BitVec.and_allOnes]
    _ = opField op.pattern := congrArg opField ((selects_row_iff w op).1 h)
    _ = op.code := op.opField_pattern

/-- "At most one row matches any word" (R66). -/
theorem opcode_unique_of_selects {w : Word} {op op' : Opcode} (h : selects w op.row) (h' : selects w op'.row) :
    op = op' :=
  Opcode.code_injective ((opField_of_selects h).symm.trans (opField_of_selects h'))

theorem decode_of_selects {w : Word} {op : Opcode} (h : selects w op.row) : decode w = .ok (op.withOperands w) :=
  (decode_of_opcode (opField_of_selects h)).trans (if_pos h)

/-- An assigned `OP` with a must-be-zero bit set (R69). -/
theorem decode_of_not_selects {w : Word} {op : Opcode} (hop : opField w = op.code) (h : ¬ selects w op.row) :
    decode w = .error .mustBeZeroBitSet :=
  (decode_of_opcode hop).trans (if_neg h)

theorem decode_eq_ok_iff_selects (w : Word) (i : Instr) :
    decode w = .ok i ↔ ∃ op : Opcode, selects w op.row ∧ i = op.withOperands w := by
  constructor
  · intro h
    obtain ⟨op, _, hsel, hi⟩ := decode_eq_ok h
    exact ⟨op, hsel, hi⟩
  · rintro ⟨op, hsel, rfl⟩
    exact decode_of_selects hsel

/-! ### Illegal words -/

/-- The two ways a word is illegal (R69, R70, R132) are the two the decoder refuses. -/
theorem decode_error_of_illegal {w : Word}
    (h : 0xA ≤ (opField w).toNat ∨ ∃ r ∈ opcodeMap, r.op = opField w ∧ ¬ selects w r) :
    ∃ e, decode w = .error e := by
  obtain hreserved | ⟨r, hr, hop, hstray⟩ := h
  · exact ⟨_, decode_of_reserved hreserved⟩
  · obtain ⟨op, rfl⟩ := (mem_opcodeMap_iff r).1 hr
    exact ⟨_, decode_of_not_selects hop.symm hstray⟩

/-- A command word reaches the legality check when reset is released (R69, R162). -/
theorem step_of_command {s : State} {w : Word} {rest : List Input} (hin : s.inputs = .command w :: rest)
    (hr : s.resetHeld = false) : step s = executeWord w (setInputs rest s) := by
  rw [step_of_cons hin, acceptInput, setInputs_resetHeld, hr]
  rfl

theorem step_of_decode_error {s : State} {w : Word} {rest : List Input} {e : DecodeError}
    (hin : s.inputs = .command w :: rest) (hr : s.resetHeld = false) (hd : decode w = .error e) :
    step s = .next (recorded 1#4 (setInputs rest s)) := by
  rw [step_of_command hin hr, executeWord_of_error hd, raiseProtocolError_eq_recorded]
  rfl

/-! ### The obligations -/

/-- Settles O3: the printed rows are the decoder's, and a word decodes exactly when it selects one. -/
theorem wordsDecodeToTheRowTheySelect : Obligations.WordsDecodeToTheRowTheySelect := by
  refine ⟨fun w i h => ?_, fun w r hr hsel => ?_, fun w r r' hr hr' hsel hsel' => ?_⟩
  · obtain ⟨op, hsel, rfl⟩ := (decode_eq_ok_iff_selects w i).1 h
    exact ⟨op.row, (mem_opcodeMap_iff _).2 ⟨op, rfl⟩, (opOf_withOperands w op).symm, hsel⟩
  · obtain ⟨op, rfl⟩ := (mem_opcodeMap_iff r).1 hr
    exact ⟨op.withOperands w, decode_of_selects hsel, opOf_withOperands w op⟩
  · obtain ⟨op, rfl⟩ := (mem_opcodeMap_iff r).1 hr
    obtain ⟨op', rfl⟩ := (mem_opcodeMap_iff r').1 hr'
    rw [opcode_unique_of_selects hsel hsel']

/-- Settles O9: the decoder refuses the word, and a refused word records ILLEGAL. -/
theorem illegalWordsRecordIllegal : Obligations.IllegalWordsRecordIllegal := by
  intro s w rest hin hr hillegal
  obtain ⟨e, hd⟩ := decode_error_of_illegal hillegal
  exact step_of_decode_error hin hr hd

/-- Settles O6: each column of R67's table, flag by flag, and that `toBits` and `ofBits` are inverse. -/
theorem flagTableIsTheEncoding : Obligations.FlagTableIsTheEncoding :=
  ⟨⟨rfl, rfl, rfl, rfl⟩, fun f => ⟨f.init_eq_bit, f.fin_eq_bit⟩, fun f => ⟨f.init_iff, f.fin_iff⟩,
    WindowFlag.ofBits_toBits, WindowFlag.toBits_ofBits⟩

end Sys2Proof
end

section
/-! The algorithm's closed forms (spec/40_window.md R80-R84), and WBEGIN, WBYTE and WEND on the command channel
(R85-R87). A round is its closed form because the bit it inserts lands on a bit the shift left 0; byte steps and
finalize rounds are then folds and iterates of equal functions. -/

namespace Sys2Proof.Machine

open Safety

/-! ### The round -/

/-- The two branches of a round are one XOR. -/
theorem crcRound_eq_xor (r : Word) (c : Bool) :
    crcRound r c = setBit31 (r >>> 1) c ^^^ (if r.getLsbD 0 then poly else 0#32) := by
  cases h : r.getLsbD 0 with
  | true => exact crcRound_of_bit h c
  | false => exact (crcRound_of_no_bit h c).trans BitVec.xor_zero.symm

/-- Bit 31 of a word shifted right is 0, so inserting there is an XOR. -/
theorem setBit31_shiftRight_one (r : Word) (c : Bool) :
    setBit31 (r >>> 1) c = (r >>> 1) ^^^ ((if c then 1#32 else 0#32) <<< 31) := by
  apply BitVec.eq_of_getLsbD_eq
  intro k hk
  have hinsert : ((if c then 1#32 else 0#32) <<< 31).getLsbD k = (decide (k = 31) && c) := by
    revert k c
    decide
  rw [setBit31_getLsbD, BitVec.getLsbD_xor, hinsert, BitVec.getLsbD_ushiftRight]
  obtain hlow | rfl : k < 31 ∨ k = 31 := by omega
  · simp [hlow, hlow.ne]
  · simp

/-- R80's closed form. -/
theorem crcRound_eq_roundForm : crcRound = roundForm := by
  funext r c
  rw [crcRound_eq_xor, setBit31_shiftRight_one]
  rfl

/-- A round bit by bit: what the shift and the insertion leave at bit `k`, XOR `POLY[k]` when bit 0 was 1. -/
theorem crcRound_getLsbD (r : Word) (c : Bool) (k : Nat) :
    (crcRound r c).getLsbD k
      = ((if k < 31 then r.getLsbD (k + 1) else decide (k = 31) && c) ^^ (r.getLsbD 0 && poly.getLsbD k)) := by
  have hpoly : (if r.getLsbD 0 then poly else 0#32).getLsbD k = (r.getLsbD 0 && poly.getLsbD k) := by
    cases r.getLsbD 0 <;> simp
  rw [crcRound_eq_xor, BitVec.getLsbD_xor, hpoly, setBit31_getLsbD, BitVec.getLsbD_ushiftRight, Nat.add_comm 1 k]

/-! ### The byte step and the finalize -/

theorem byteStep_eq_byteForm : byteStep = byteForm := by
  funext r b
  rw [byteStep, feedBits_eq, crcRound_eq_roundForm]
  rfl

/-- A finalize round feeds the bit its configuration names (R82). -/
theorem crcRound_finalizeBit (feed : FinalizeFeed) (r : Word) :
    crcRound r (finalizeBit feed r) = finalizeRoundForm feed r := by
  rw [crcRound_eq_roundForm]
  cases feed <;> rfl

theorem finalizeRounds_eq_iterate (feed : FinalizeFeed) (k : Nat) (r : Word) :
    finalizeRounds feed k r = (finalizeRoundForm feed)^[k] r := by
  induction k generalizing r with
  | zero => rfl
  | succ k ih => rw [finalizeRounds_succ, crcRound_finalizeBit, ih, Function.iterate_succ_apply]

theorem finalize_eq_finalizeForm (feed : FinalizeFeed) (r : Word) : finalize feed r = finalizeForm feed r := by
  rw [finalize, finalizeRounds_eq_iterate]
  exact BitVec.xor_allOnes.symm

/-! ### The window -/

/-- Entry by the INIT bit of the flag's encoding (R67, R83). -/
theorem entryValue_eq_ite (f : WindowFlag) (s : Word) :
    entryValue f s = if f.toBits.getLsbD 0 then 0xFFFFFFFF#32 else s := by
  rw [← f.init_eq_bit]
  rfl

/-- Exit by the FIN bit of the flag's encoding (R67, R84). -/
theorem exitValue_eq_ite (feed : FinalizeFeed) (f : WindowFlag) (r : Word) :
    exitValue feed f r = if f.toBits.getLsbD 1 then finalizeForm feed r else r := by
  rw [← f.fin_eq_bit, ← finalize_eq_finalizeForm]
  rfl

/-! ### The window commands: the phase check, then the effect -/

/-- BEGIN_IN_WINDOW (R133), or a window opens (R85). -/
theorem exec_wbegin (f : WindowFlag) (s : State) :
    exec (.wbegin f) s = .next
      (if s.phase = .inWindow then recorded 2#4 s
      else { s with flag := f, fcs := entryValue f s.acc, phase := .inWindow }) := by
  rw [exec, execWbegin]
  split
  next hp => rw [if_pos hp]; rfl
  next hp => rw [if_neg (by simp [hp]), openWindow_eq]

/-- BYTE_OUTSIDE (R134), or the byte is processed (R86). -/
theorem exec_wbyte (b : Byte) (s : State) :
    exec (.wbyte b) s = .next
      (if s.phase = .idle then recorded 3#4 s else { s with fcs := byteForm s.fcs b }) := by
  rw [exec, execWbyte]
  split
  next hp => rw [if_pos hp]; rfl
  next hp => rw [if_neg (by simp [hp]), setWorking_eq, byteStep_eq_byteForm]

/-- END_OUTSIDE (R135), or the window closes (R87). -/
theorem exec_wend (s : State) :
    exec .wend s = .next
      (if s.phase = .idle then recorded 4#4 s
      else closeWindow (exitValue s.config.finalizeFeed s.flag s.fcs) s) := by
  rw [exec, execWend]
  split
  next hp => rw [if_pos hp]; rfl
  next hp => rw [if_neg (by simp [hp])]

/-! ### A word with an assigned opcode on the command channel -/

section

variable {s : State} {w : Word} {rest : List Input} {op : Opcode}

/-- A must-be-zero bit is set: ILLEGAL is recorded (R69, R132). -/
theorem step_of_not_selects (hin : s.inputs = .command w :: rest) (hr : s.resetHeld = false)
    (hop : opField w = op.code) (hsel : ¬ selects w op.row) :
    step s = .next (recorded 1#4 { s with inputs := rest }) :=
  step_of_decode_error hin hr (decode_of_not_selects hop hsel)

/-- Every must-be-zero bit is 0: the command executes (R69). -/
theorem step_of_selects (hin : s.inputs = .command w :: rest) (hr : s.resetHeld = false) (hsel : selects w op.row) :
    step s = exec (op.withOperands w) { s with inputs := rest } :=
  (step_of_command hin hr).trans (executeWord_of_ok (decode_of_selects hsel) _)

end

/-- Format N fixes every bit, so one word alone selects the row (R62). -/
theorem selects_iff_eq_of_formatN {op : Opcode} (hN : op.format = .N) (w : Word) :
    selects w op.row ↔ w = op.pattern := by
  have hmask : op.mask = BitVec.allOnes 32 := congrArg Format.mask hN
  rw [selects_row_iff, hmask, BitVec.and_allOnes]

/-- The INIT bit of the flag in a WBEGIN word is bit 24 (R67, R68). -/
theorem ofBits_flgField_init_bit (w : Word) : (WindowFlag.ofBits (flgField w)).toBits.getLsbD 0 = w.getLsbD 24 := by
  rw [WindowFlag.toBits_ofBits, flgField, BitVec.getLsbD_extractLsb']
  simp

theorem dataField_eq_setWidth (w : Word) : dataField w = w.setWidth 8 :=
  (BitVec.setWidth_eq_extractLsb' (by decide)).symm

/-! ### The obligations -/

/-- Settles O41: the closed form, and the two bit rules as the cases `k = 31` and `k < 31` of one. -/
theorem roundIsItsClosedForm : Obligations.RoundIsItsClosedForm := by
  refine ⟨fun r c => congrFun₂ crcRound_eq_roundForm r c, fun r c => ?_, fun r c k hk => ?_, by decide⟩
  · have hpoly : poly.getLsbD 31 = true := by decide
    rw [crcRound_getLsbD, hpoly, Bool.and_true]
    rfl
  · rw [crcRound_getLsbD, if_pos hk]
    rfl

/-- Settles O42: the two closed forms, and the rules' examples by evaluation. -/
theorem byteStepAndFinalizeAreTheirRounds : Obligations.ByteStepAndFinalizeAreTheirRounds :=
  ⟨fun r b => congrFun₂ byteStep_eq_byteForm r b, finalize_eq_finalizeForm, by decide +kernel, by decide +kernel,
    by decide +kernel⟩

/-- Settles O43: entry and exit by the flag's bits, around a fold of the closed-form byte step. -/
theorem windowStepFollowsItsRule : Obligations.WindowStepFollowsItsRule := by
  refine ⟨entryValue_eq_ite, fun feed s w f => ?_, by decide +kernel⟩
  rw [windowStep_eq, exitValue_eq_ite, entryValue_eq_ite, byteStep_eq_byteForm]

/-- Settles O24: the legality check, then R85, the flag's INIT bit read from the word. -/
theorem wbeginWordFollowsItsRule : Obligations.WbeginWordFollowsItsRule := by
  intro s w rest hin hr hop
  by_cases hsel : w &&& 0xFCFFFFFF#32 = 0x10000000#32
  · rw [step_of_selects (op := .wbegin) hin hr hsel, if_neg (not_not_intro hsel), Opcode.withOperands, exec_wbegin,
      entryValue_eq_ite, ofBits_flgField_init_bit]
    rfl
  · rw [if_pos hsel]
    exact step_of_not_selects (op := .wbegin) hin hr hop hsel

/-- Settles O25: the legality check, then R86. -/
theorem wbyteWordFollowsItsRule : Obligations.WbyteWordFollowsItsRule := by
  intro s w rest hin hr hop
  by_cases hsel : w &&& 0xFFFFFF00#32 = 0x20000000#32
  · rw [step_of_selects (op := .wbyte) hin hr hsel, if_neg (not_not_intro hsel), Opcode.withOperands, exec_wbyte,
      dataField_eq_setWidth]
  · rw [if_pos hsel]
    exact step_of_not_selects (op := .wbyte) hin hr hop hsel

/-- Settles O26: the legality check, which one word passes, then R87 with the window's exit value. -/
theorem wendWordFollowsItsRule : Obligations.WendWordFollowsItsRule := by
  intro s w rest hin hr hop
  have hsel : selects w Opcode.wend.row ↔ w = 0x30000000#32 := selects_iff_eq_of_formatN rfl w
  by_cases hw : w = 0x30000000#32
  · rw [step_of_selects hin hr (hsel.2 hw), if_neg (not_not_intro hw), Opcode.withOperands, exec_wend,
      ← exitValue_eq_ite, closeWindow_eq]
  · rw [if_pos hw]
    exact step_of_not_selects (op := .wend) hin hr hop (mt hsel.1 hw)

end Sys2Proof.Machine
end

section
/-! The control and read commands on the command channel (spec/41_control.md R100-R106). A word of an assigned opcode
either fails the legality check or leaves what its command leaves; the halves of `ACC` and the fields of `STATUS` are
concatenations. -/

namespace Sys2Proof.Machine

open Safety

/-! ### The halves of the accumulator -/

/-- `{a[31:16], imm}` (R102). -/
theorem withLowHalf_eq_append (a : Word) (imm : Half) : withLowHalf a imm = a.extractLsb' 16 16 ++ imm := by
  apply BitVec.eq_of_getLsbD_eq
  intro k hk
  rw [withLowHalf_getLsbD, BitVec.getLsbD_append, BitVec.getLsbD_extractLsb']
  split
  next => rfl
  next hlow => simp [show k - 16 < 16 by omega, show 16 + (k - 16) = k by omega]

/-- `{imm, a[15:0]}` (R103). -/
theorem withHighHalf_eq_append (a : Word) (imm : Half) : withHighHalf a imm = imm ++ a.extractLsb' 0 16 := by
  apply BitVec.eq_of_getLsbD_eq
  intro k _
  rw [withHighHalf_getLsbD, BitVec.getLsbD_append, BitVec.getLsbD_extractLsb']
  split
  next hlow => simp [hlow]
  next => rfl

/-- The two loads write disjoint halves (R102). -/
theorem withHighHalf_withLowHalf_comm (a : Word) (lo hi : Half) :
    withHighHalf (withLowHalf a lo) hi = withLowHalf (withHighHalf a hi) lo := by
  apply BitVec.eq_of_getLsbD_eq
  intro k _
  simp only [withHighHalf_getLsbD, withLowHalf_getLsbD]
  split <;> rfl

/-! ### The status view -/

/-- A concatenation in a word of another width: the high part shifted over the low part. -/
theorem setWidth_append_eq_shiftLeft_or {n m v : Nat} (x : BitVec n) (y : BitVec m) :
    (x ++ y).setWidth v = (x.setWidth v <<< m) ||| y.setWidth v := by
  apply BitVec.eq_of_getLsbD_eq
  intro k hk
  rw [BitVec.getLsbD_setWidth, BitVec.getLsbD_append, BitVec.getLsbD_or, BitVec.getLsbD_shiftLeft,
    BitVec.getLsbD_setWidth, BitVec.getLsbD_setWidth]
  by_cases hlow : k < m
  · simp [hlow]
  · simp [hlow, hk, show k - m < v by omega, BitVec.getLsbD_of_ge y k (by omega)]

theorem ofBool_setWidth_eq_ite (b : Bool) : (BitVec.ofBool b).setWidth 32 = if b then 1#32 else 0#32 := by
  cases b <;> rfl

theorem Phase.toBit_setWidth_eq_ite (p : Phase) : p.toBit.setWidth 32 = if p = .inWindow then 1#32 else 0#32 := by
  cases p <;> rfl

/-- R27's concatenation is its fields at their places: `ERRCODE` at bit 4, `ERR` at 3, `FLAG` at 1, `PHASE` at 0. -/
theorem statusView_eq_statusForm (s : State) : statusView s = statusForm s := by
  simp only [statusView, setWidth_append_eq_shiftLeft_or, ofBool_setWidth_eq_ite, Phase.toBit_setWidth_eq_ite,
    BitVec.shiftLeft_or_distrib, ← BitVec.shiftLeft_add]
  rfl

/-! ### The commands -/

@[simp] theorem recorded_phase (code : BitVec 4) (s : State) : (recorded code s).phase = s.phase := rfl

theorem exec_nop (s : State) : exec .nop s = .next s := rfl

/-- CLEAR (R101): every register at 0, and the response channel kept. -/
theorem exec_clear (s : State) :
    exec .clear s = .next { s with acc := 0x00000000#32, fcs := 0x00000000#32, phase := .idle, flag := .middle, err := false, errcode := 0#4 } :=
  rfl

/-- LOAD_IN_WINDOW (R136), or the low half of `ACC` is loaded (R102). -/
theorem exec_ldlo (imm : Half) (s : State) :
    exec (.ldlo imm) s = .next
      (if s.phase = .inWindow then recorded 5#4 s else { s with acc := withLowHalf s.acc imm }) := by
  rw [exec, execLdlo]
  split
  next hp => rw [if_pos hp]; rfl
  next hp => rw [if_neg (by simp [hp]), setAccumulator_eq]

/-- LOAD_IN_WINDOW (R136), or the high half of `ACC` is loaded (R103). -/
theorem exec_ldhi (imm : Half) (s : State) :
    exec (.ldhi imm) s = .next
      (if s.phase = .inWindow then recorded 5#4 s else { s with acc := withHighHalf s.acc imm }) := by
  rw [exec, execLdhi]
  split
  next hp => rw [if_pos hp]; rfl
  next hp => rw [if_neg (by simp [hp]), setAccumulator_eq]

theorem exec_rdstate (s : State) : exec .rdstate s = .next { s with responses := s.responses ++ [s.acc] } := rfl

theorem exec_rdwork (s : State) : exec .rdwork s = .next { s with responses := s.responses ++ [s.fcs] } := rfl

theorem exec_rdstatus (s : State) :
    exec .rdstatus s = .next { s with responses := s.responses ++ [statusForm s] } := by
  rw [← statusView_eq_statusForm]
  rfl

/-- In a window each load records LOAD_IN_WINDOW, in either order; in `Idle` they write disjoint halves (R102). -/
theorem exec_ldlo_ldhi_comm {lo hi : Half} {s t u t' u' : State} (ht : exec (.ldlo lo) s = .next t)
    (hu : exec (.ldhi hi) t = .next u) (ht' : exec (.ldhi hi) s = .next t') (hu' : exec (.ldlo lo) t' = .next u') :
    u = u' := by
  rw [exec_ldlo, Host.Outcome.next.injEq] at ht hu'
  rw [exec_ldhi, Host.Outcome.next.injEq] at hu ht'
  subst ht hu ht' hu'
  by_cases hp : s.phase = .inWindow
  · simp only [recorded_phase, if_pos hp]
  · simp only [if_neg hp, withHighHalf_withLowHalf_comm]

/-! ### A word with an assigned opcode, when its command's effect is known -/

section

variable {s t : State} {w : Word} {rest : List Input} {op : Opcode}

/-- ILLEGAL when the word does not match its row, else what the command leaves (R69). -/
theorem step_of_opcode (hin : s.inputs = .command w :: rest) (hr : s.resetHeld = false) (hop : opField w = op.code)
    (hexec : exec (op.withOperands w) { s with inputs := rest } = .next t) :
    step s = .next (if w &&& op.mask ≠ op.pattern then recorded 1#4 { s with inputs := rest } else t) := by
  by_cases hsel : w &&& op.mask = op.pattern
  · rw [step_of_selects hin hr hsel, hexec, if_neg (not_not_intro hsel)]
  · rw [step_of_not_selects hin hr hop hsel, if_pos hsel]

/-- In format N the only legal word is the row's own (R62). -/
theorem step_of_formatN_opcode (hN : op.format = .N) (hin : s.inputs = .command w :: rest)
    (hr : s.resetHeld = false) (hop : opField w = op.code)
    (hexec : exec (op.withOperands w) { s with inputs := rest } = .next t) :
    step s = .next (if w ≠ op.pattern then recorded 1#4 { s with inputs := rest } else t) := by
  simpa only [← selects_row_iff, ne_eq, selects_iff_eq_of_formatN hN] using step_of_opcode hin hr hop hexec

end

/-! ### The obligations -/

/-- Settles O27: each row is of format N, and its command's effect is R100's or R101's. -/
theorem nopAndClearWordsFollowTheirRules : Obligations.NopAndClearWordsFollowTheirRules :=
  ⟨fun _ _ _ hin hr hop => step_of_formatN_opcode (op := .nop) rfl hin hr hop (exec_nop _),
    fun _ _ _ hin hr hop => step_of_formatN_opcode (op := .clear) rfl hin hr hop (exec_clear _)⟩

/-- Settles O28: the legality check, then R102; and the commutation of the two loads. -/
theorem ldloWordFollowsItsRule : Obligations.LdloWordFollowsItsRule := by
  refine ⟨fun s w rest hin hr hop => ?_, fun _ _ _ _ _ _ _ => exec_ldlo_ldhi_comm⟩
  rw [step_of_opcode (op := .ldlo) hin hr hop (exec_ldlo _ _), withLowHalf_eq_append]
  rfl

/-- Settles O29: the legality check, then R103. -/
theorem ldhiWordFollowsItsRule : Obligations.LdhiWordFollowsItsRule := by
  intro s w rest hin hr hop
  rw [step_of_opcode (op := .ldhi) hin hr hop (exec_ldhi _ _), withHighHalf_eq_append]
  rfl

/-- Settles O30: each row is of format N, and its command appends the word of R104, R105 or R106. -/
theorem readWordsFollowTheirRules : Obligations.ReadWordsFollowTheirRules :=
  ⟨fun _ _ _ hin hr hop => step_of_formatN_opcode (op := .rdstate) rfl hin hr hop (exec_rdstate _),
    fun _ _ _ hin hr hop => step_of_formatN_opcode (op := .rdwork) rfl hin hr hop (exec_rdwork _),
    fun _ _ _ hin hr hop => step_of_formatN_opcode (op := .rdstatus) rfl hin hr hop (exec_rdstatus _)⟩

end Sys2Proof.Machine
end

section
/-! The host's partition of a source into windows (spec/45_host_windowing.md R111): the loop in closed form, by the
number of the window, and the bytes its windows cover. -/

namespace Sys2Proof.Machine

/-! ### The number of windows -/

/-- ceil(L / W), the number of windows of a source longer than one window (R111). -/
def windowCount (L W : Nat) : Nat := (L + W - 1) / W

section

variable {L W : Nat}

/-- There is a `k`-th window exactly when its offset is inside the source. -/
theorem lt_windowCount_iff (hW : 1 ≤ W) (k : Nat) : k < windowCount L W ↔ k * W < L := by
  have hle : k + 1 ≤ windowCount L W ↔ (k + 1) * W ≤ L + W - 1 := Nat.le_div_iff_mul_le hW
  rw [Nat.succ_mul] at hle
  omega

/-- The `k`-th window is the last one exactly when the source ends in it. -/
theorem succ_eq_windowCount_iff (hW : 1 ≤ W) (k : Nat) :
    k + 1 = windowCount L W ↔ k * W < L ∧ L ≤ (k + 1) * W := by
  rw [← lt_windowCount_iff hW, ← Nat.not_lt, ← lt_windowCount_iff hW]
  omega

/-- The last window holds from 1 to `W` bytes (R111). -/
theorem lastLength_bounds (hW : 1 ≤ W) (hL : 0 < L) :
    1 ≤ L - (windowCount L W - 1) * W ∧ L - (windowCount L W - 1) * W ≤ W := by
  have hpos : 0 < windowCount L W := (lt_windowCount_iff hW 0).2 (by omega)
  obtain ⟨hlt, hle⟩ := (succ_eq_windowCount_iff hW (windowCount L W - 1)).1 (Nat.sub_add_cancel hpos)
  rw [Nat.succ_mul] at hle
  omega

/-! ### The windows by their number -/

/-- The `k`-th window of a source longer than one window. -/
def segmentAt (L W k : Nat) : Segment :=
  if k = 0 then ⟨0, W, .first⟩
  else if k + 1 = windowCount L W then ⟨k * W, L - k * W, .last⟩
  else ⟨k * W, W, .middle⟩

theorem segmentAt_zero : segmentAt L W 0 = ⟨0, W, .first⟩ := rfl

theorem segmentAt_last {k : Nat} (hk : k ≠ 0) (hlast : k + 1 = windowCount L W) :
    segmentAt L W k = ⟨k * W, L - k * W, .last⟩ := by
  rw [segmentAt, if_neg hk, if_pos hlast]

theorem segmentAt_middle {k : Nat} (hk : k ≠ 0) (hmore : k + 1 ≠ windowCount L W) :
    segmentAt L W k = ⟨k * W, W, .middle⟩ := by
  rw [segmentAt, if_neg hk, if_neg hmore]

/-- When the source ends in the `k`-th window, that window is all that the closed form has from `k` on. -/
theorem map_segmentAt_last {k : Nat} (hk : k ≠ 0) (hlast : k + 1 = windowCount L W) :
    (List.range' k (windowCount L W - k)).map (segmentAt L W) = [⟨k * W, L - k * W, .last⟩] := by
  have hone : windowCount L W - k = 1 := by omega
  rw [hone, List.range'_one, List.map_singleton, segmentAt_last hk hlast]

/-- The loop of R111 from the `k`-th window on gives the windows `k`, `k + 1`, ..., when its fuel reaches the end of
the source. -/
theorem laterSegments_eq_map (hW : 1 ≤ W) {fuel k : Nat} (hk : k ≠ 0) (hstart : k * W < L)
    (hfuel : L ≤ (k + fuel + 1) * W) :
    laterSegments L W fuel (k * W) = (List.range' k (windowCount L W - k)).map (segmentAt L W) := by
  induction fuel generalizing k with
  | zero => exact (map_segmentAt_last hk ((succ_eq_windowCount_iff hW k).2 ⟨hstart, hfuel⟩)).symm
  | succ fuel ih =>
    rw [laterSegments, ← Nat.succ_mul]
    split
    next hmore =>
      have hcount : k + 1 < windowCount L W := (lt_windowCount_iff hW (k + 1)).2 hmore
      have hsplit : windowCount L W - k = windowCount L W - (k + 1) + 1 := by omega
      rw [ih k.succ_ne_zero hmore (by rwa [Nat.add_right_comm k 1 fuel]), hsplit, List.range'_succ, List.map_cons,
        segmentAt_middle hk hcount.ne]
    next hend =>
      exact (map_segmentAt_last hk ((succ_eq_windowCount_iff hW k).2 ⟨hstart, Nat.not_lt.1 hend⟩)).symm

/-! ### The partition -/

theorem partition_of_le (hW : 1 ≤ W) (h : L ≤ W) : partition L W = some [⟨0, L, .only⟩] := by
  rw [partition, if_neg (Nat.ne_of_gt hW), if_pos h]

/-- A source longer than one window: FIRST, then the loop of R111. -/
theorem partition_of_lt (hW : 1 ≤ W) (h : W < L) :
    partition L W = some (⟨0, W, .first⟩ :: laterSegments L W (L / W) W) := by
  rw [partition, if_neg (Nat.ne_of_gt hW), if_neg (Nat.not_le.2 h)]

theorem partition_eq_map_segmentAt (hW : 1 ≤ W) (h : W < L) :
    partition L W = some ((List.range (windowCount L W)).map (segmentAt L W)) := by
  have hfuel : L ≤ (1 + L / W + 1) * W := by
    calc L ≤ W * (L / W + 1) := (Nat.lt_mul_div_succ L hW).le
      _ = (L / W + 1) * W := Nat.mul_comm ..
      _ ≤ (1 + L / W + 1) * W := Nat.mul_le_mul_right W (by omega)
  have hlater := laterSegments_eq_map hW one_ne_zero (by rwa [Nat.one_mul]) hfuel
  have hpos : 0 < windowCount L W := (lt_windowCount_iff hW 0).2 (by omega)
  have hrange : List.range (windowCount L W) = 0 :: List.range' 1 (windowCount L W - 1) :=
    List.range_eq_range'.trans (List.range'_eq_cons_iff.2 ⟨rfl, hpos, rfl⟩)
  rw [Nat.one_mul] at hlater
  rw [partition_of_lt hW h, hlater, hrange, List.map_cons, segmentAt_zero]

end

/-! ### The bytes the windows cover -/

/-- A window up to the end of the source holds all that is left of it. -/
theorem segmentBytes_last (data : List Byte) (s : Nat) :
    segmentBytes data ⟨s, data.length - s, .last⟩ = data.drop s :=
  List.take_of_length_le (List.length_drop ..).le

/-- From any position, with any fuel, the loop's windows hold the rest of the source once, in order. -/
theorem laterSegments_flatMap_segmentBytes (data : List Byte) (W fuel s : Nat) :
    (laterSegments data.length W fuel s).flatMap (segmentBytes data) = data.drop s := by
  induction fuel generalizing s with
  | zero => rw [laterSegments, List.flatMap_singleton, segmentBytes_last]
  | succ fuel ih =>
    rw [laterSegments]
    split
    · calc (data.drop s).take W ++ (laterSegments data.length W fuel (s + W)).flatMap (segmentBytes data)
        _ = (data.drop s).take W ++ (data.drop s).drop W := by rw [ih, List.drop_drop]
        _ = data.drop s := List.take_append_drop W _
    · rw [List.flatMap_singleton, segmentBytes_last]

/-- The windows of a partition hold the bytes of the source once each, in order (R111). -/
theorem partition_flatMap_segmentBytes {data : List Byte} {W : Nat} {segs : List Segment} (hW : 1 ≤ W)
    (h : partition data.length W = some segs) : segs.flatMap (segmentBytes data) = data := by
  rcases Nat.lt_or_ge W data.length with hlong | hshort
  · rw [partition_of_lt hW hlong, Option.some.injEq] at h
    subst h
    rw [List.flatMap_cons, laterSegments_flatMap_segmentBytes]
    exact List.take_append_drop W data
  · rw [partition_of_le hW hshort, Option.some.injEq] at h
    subst h
    rw [List.flatMap_singleton]
    exact List.take_length

/-! ### The obligation -/

/-- Settles O53: the loop of R111 by the number of its rounds, and what its windows hold. -/
theorem partitionCutsTheSource : Obligations.PartitionCutsTheSource := by
  intro L W hW
  refine ⟨partition_of_le hW, partition_eq_map_segmentAt hW, fun h => lastLength_bounds hW (by omega), ?_⟩
  rintro data segs rfl h
  exact partition_flatMap_segmentBytes hW h

end Sys2Proof.Machine
end

section
/-! The phase errors and nested errors (spec/60_exceptions.md R133-R137, R141). An error changes `ERR` and `ERRCODE`
alone, and `ERRCODE` only while `ERR` is 0; so between two states with `ERR` 1, where nothing was cleared, the first
code stays. -/

namespace Sys2Proof.Machine

/-- "The first code is kept" (R137). -/
theorem raiseProtocolError_errcode_of_err (e : ProtocolError) {s : State} (hs : s.err = true) :
    (raiseProtocolError e s).errcode = s.errcode := by
  rw [raiseProtocolError_errcode, if_pos hs]

theorem ErrorKeptOrRaised.errcode_eq_of_err {s t : State} (h : ErrorKeptOrRaised s t) (hs : s.err = true) :
    t.errcode = s.errcode := by
  obtain ⟨_, hcode⟩ | ⟨e, rfl⟩ := h
  · exact hcode
  · exact raiseProtocolError_errcode_of_err e hs

/-! ### The obligations -/

/-- Settles O33: a step that clears the error leaves `ERR` 0, and any other step keeps or raises one. -/
theorem firstErrorCodeIsKept : Obligations.FirstErrorCodeIsKept := by
  intro s t h hs ht
  obtain ⟨_, herr, _⟩ | hkept := step_clears_or_errorKeptOrRaised h
  · exact absurd ht (herr ▸ Bool.false_ne_true)
  · exact hkept.errcode_eq_of_err hs

/-- Settles O23: the erring branch of each command's phase check. -/
theorem outOfPhaseCommandsAreDiscarded : Obligations.OutOfPhaseCommandsAreDiscarded :=
  ⟨fun f s hp => by rw [exec_wbegin, if_pos hp],
    fun b s hp => by rw [exec_wbyte, if_pos hp],
    fun s hp => by rw [exec_wend, if_pos hp],
    fun imm s hp => by rw [exec_ldlo, if_pos hp],
    fun imm s hp => by rw [exec_ldhi, if_pos hp]⟩

end Sys2Proof.Machine
end

section
/-! Reset (spec/70_reset_and_hazards.md R160, R162). Reset going active is one update, `enterReset`, which does not read
the command that was in progress; while reset is held a command word is taken off the line and nothing else happens. -/

namespace Sys2Proof.Machine

/-! ### Reset going active -/

/-- The step of `step_assertReset`, with the rest of the line named: the word in progress `p` is not in it (R162). -/
theorem step_assertReset_of_cons {s : State} {p : Option Word} {rest : List Input}
    (hin : s.inputs = .assertReset p :: rest) : step s = .next (enterReset (setInputs rest s)) :=
  step_of_cons hin

/-- Two resets in the same state lead to the same state, whatever command each of them interrupts (R162). -/
theorem step_assertReset_congr (s : State) (p q : Option Word) (rest : List Input) :
    step { s with inputs := .assertReset p :: rest } = step { s with inputs := .assertReset q :: rest } :=
  have hstep (r : Option Word) :
      step { s with inputs := .assertReset r :: rest } = .next (enterReset (setInputs rest s)) :=
    step_assertReset_of_cons rfl
  (hstep p).trans (hstep q).symm

/-! ### While reset is held -/

theorem acceptInput_command_of_held {s : State} (w : Word) (hr : s.resetHeld = true) :
    acceptInput (.command w) s = .next s :=
  if_pos hr

/-- "Commands sent while reset is held are ignored" (R162). -/
theorem step_command_of_held {s : State} {w : Word} {rest : List Input} (hin : s.inputs = .command w :: rest)
    (hr : s.resetHeld = true) : step s = .next (setInputs rest s) :=
  (step_of_cons hin).trans (acceptInput_command_of_held w hr)

/-! ### The obligations -/

/-- Settles O14: the step is `enterReset`, which gives each register and the channel the value of R34. -/
theorem resetSetsEveryRegister : Obligations.ResetSetsEveryRegister :=
  fun _ _ _ hin => ⟨_, step_assertReset_of_cons hin, enterReset_acc _, enterReset_fcs _, enterReset_phase _,
    congrArg WindowFlag.toBits (enterReset_flag _), enterReset_err _, enterReset_errcode _, enterReset_responses _⟩

/-- Settles O15: reset does not read the command in progress, it empties the channel and clears `ERR`, and a held reset
ignores commands. -/
theorem resetDiscardsCommandsAndResponses : Obligations.ResetDiscardsCommandsAndResponses := by
  refine ⟨fun s p rest => step_assertReset_congr s p none rest, ?_, fun _ _ _ => step_command_of_held⟩
  intro s t p rest hin h
  rw [step_assertReset_of_cons hin, Host.Outcome.next.injEq] at h
  exact h ▸ ⟨enterReset_responses _, enterReset_err _⟩

end Sys2Proof.Machine
end

section
/-! The round trips between commands and words (spec/30_encoding.md R60-R72), and the step that runs a decoded command.
A command's word is its row's `match` bits with the operand in the bits the row's mask leaves free; so a word that
matches its row is the word of the command the decoder reads from it. -/

namespace Sys2Proof

open Safety Machine

/-! ### The operand fields -/

/-- A field at bit 0, put back into a word, is the word's bits under the field's mask. -/
theorem setWidth_extractLsb'_zero_eq_and {n : Nat} {m : Word} (w : Word)
    (hm : ∀ k < 32, m.getLsbD k = decide (k < n)) : (w.extractLsb' 0 n).setWidth 32 = w &&& m := by
  apply BitVec.eq_of_getLsbD_eq
  intro k hk
  rw [BitVec.getLsbD_setWidth, BitVec.getLsbD_extractLsb', BitVec.getLsbD_and, hm k hk]
  simp [hk, Bool.and_comm]

/-- The flag field, put back at bits 25:24. -/
theorem setWidth_flgField_shiftLeft (w : Word) : (flgField w).setWidth 32 <<< 24 = w &&& 0x03000000#32 := by
  have hmask : ∀ k < 32, (0x03000000#32).getLsbD k = (decide (24 ≤ k) && decide (k < 26)) := by decide
  apply BitVec.eq_of_getLsbD_eq
  intro k hk
  rw [BitVec.getLsbD_shiftLeft, BitVec.getLsbD_setWidth, flgField, BitVec.getLsbD_extractLsb', BitVec.getLsbD_and,
    hmask k hk]
  by_cases hlow : k < 24
  · simp [hlow]
  · have h32 : k - 24 < 32 := by omega
    have hadd : 24 + (k - 24) = k := by omega
    have hle : 24 ≤ k := by omega
    have hfield : k - 24 < 2 ↔ k < 26 := by omega
    simp [hlow, hk, h32, hadd, hle, hfield, Bool.and_comm]

/-- A field at bit 0 of a word whose other bits come from `hi`. -/
theorem extractLsb'_zero_or_setWidth {n : Nat} (hn : n ≤ 32) (hi : Word) (x : BitVec n)
    (hhi : hi.extractLsb' 0 n = 0#n) : (hi ||| x.setWidth 32).extractLsb' 0 n = x := by
  rw [BitVec.extractLsb'_or, hhi, BitVec.zero_or, ← BitVec.setWidth_eq_extractLsb' hn,
    BitVec.setWidth_setWidth_of_le _ hn, BitVec.setWidth_eq]

/-- Under a mask, bits outside the mask do not count. -/
theorem or_and_not_and_mask (p w m : Word) : (p ||| (w &&& ~~~m)) &&& m = p &&& m := by
  ext k hk
  simp only [BitVec.getElem_and, BitVec.getElem_or, BitVec.getElem_not]
  cases m[k] <;> simp

/-- A word is its bits under a mask and its bits outside it. -/
theorem and_mask_or_and_not_mask (w m : Word) : (w &&& m) ||| (w &&& ~~~m) = w := by
  ext k hk
  simp only [BitVec.getElem_and, BitVec.getElem_or, BitVec.getElem_not]
  cases m[k] <;> simp

/-! ### A command's word -/

/-- The word of the command an opcode takes from `w`: the row's `match`, and below it the bits of `w` that the row's
mask leaves to the operand. -/
theorem encode_withOperands (w : Word) (op : Opcode) :
    encode (op.withOperands w) = op.pattern ||| (w &&& ~~~op.mask) := by
  have hnone (p : Word) : p ||| (w &&& 0#32) = p := by rw [BitVec.and_zero, BitVec.or_zero]
  cases op with
  | nop | wend | clear | rdstate | rdwork | rdstatus => exact (hnone _).symm
  | wbegin =>
    rw [Opcode.withOperands, encode, WindowFlag.toBits_ofBits, setWidth_flgField_shiftLeft]
    rfl
  | wbyte =>
    rw [Opcode.withOperands, encode, dataField, setWidth_extractLsb'_zero_eq_and (m := 0x000000FF#32) w (by decide)]
    rfl
  | ldlo | ldhi =>
    rw [Opcode.withOperands, encode, immField, setWidth_extractLsb'_zero_eq_and (m := 0x0000FFFF#32) w (by decide)]
    rfl

/-- Each operand is read back from its field (R68). -/
theorem withOperands_encode (i : Instr) : (Laws.opcodeOf i).withOperands (encode i) = i := by
  cases i with
  | nop | wend | clear | rdstate | rdwork | rdstatus => rfl
  | wbegin f => cases f <;> rfl
  | wbyte b => exact congrArg Instr.wbyte (extractLsb'_zero_or_setWidth (by decide) 0x20000000#32 b (by decide))
  | ldlo imm => exact congrArg Instr.ldlo (extractLsb'_zero_or_setWidth (by decide) 0x50000000#32 imm (by decide))
  | ldhi imm => exact congrArg Instr.ldhi (extractLsb'_zero_or_setWidth (by decide) 0x60000000#32 imm (by decide))

/-- A row's `match` has no bit outside its mask. -/
theorem Opcode.pattern_and_mask (op : Opcode) : op.pattern &&& op.mask = op.pattern := by
  cases op <;> rfl

/-- A command's word selects the command's row (R66). -/
theorem encode_selects (i : Instr) : selects (encode i) (Laws.opcodeOf i).row := by
  rw [selects_row_iff]
  generalize hop : Laws.opcodeOf i = op
  have hword : encode i = op.pattern ||| (encode i &&& ~~~op.mask) := by
    rw [← encode_withOperands, ← hop, withOperands_encode]
  calc encode i &&& op.mask
    _ = (op.pattern ||| (encode i &&& ~~~op.mask)) &&& op.mask := by rw [← hword]
    _ = op.pattern &&& op.mask := or_and_not_and_mask _ _ _
    _ = op.pattern := op.pattern_and_mask

@[simp] theorem decode_encode (i : Instr) : decode (encode i) = .ok i :=
  (decode_of_selects (encode_selects i)).trans (congrArg Except.ok (withOperands_encode i))

/-- A word that selects a row is that row's `match` bits and its own bits outside the mask. -/
theorem encode_of_decode {w : Word} {i : Instr} (h : decode w = .ok i) : encode i = w := by
  obtain ⟨op, _, hsel, rfl⟩ := decode_eq_ok h
  rw [encode_withOperands, ← hsel, and_mask_or_and_not_mask]

theorem decode_eq_ok_iff (w : Word) (i : Instr) : decode w = .ok i ↔ w = encode i :=
  ⟨fun h => (encode_of_decode h).symm, fun h => h ▸ decode_encode i⟩

/-! ### The step that runs a command -/

/-- A decoded command executes when reset is released (R69). -/
theorem step_of_decode_ok {s : State} {w : Word} {i : Instr} {rest : List Input}
    (hin : s.inputs = .command w :: rest) (hr : s.resetHeld = false) (hd : decode w = .ok i) :
    step s = exec i { s with inputs := rest } :=
  (step_of_command hin hr).trans (executeWord_of_ok hd _)

/-- The table word of 32 bits of a word's number is the word. -/
theorem tableWord_toNat (w : Word) : tableWord 32 w.toNat = w := by
  rw [tableWord, Nat.mod_eq_of_lt w.isLt, BitVec.ofNat_toNat, BitVec.setWidth_eq]

/-! ### The obligations -/

/-- Settles O1: a command's word selects its row, and each operand is read back from its field. -/
theorem encodedCommandsDecodeBack : Obligations.EncodedCommandsDecodeBack :=
  fun i _ => decode_encode i

/-- Settles O2: under its row's mask a legal word is the row's `match`, and outside it the operand. -/
theorem legalWordsEncodeBack : Obligations.LegalWordsEncodeBack :=
  fun _ i h => ⟨encode_of_decode h, by cases i <;> rfl⟩

/-- Settles O4: the opcode of the decoded command fixes the format, and the format the field. -/
theorem operandsAreFieldsOfTheWord : Obligations.OperandsAreFieldsOfTheWord := by
  refine ⟨fun w f h => ?_, fun w b h k hk => ?_, fun w imm h k hk => ?_, fun w imm h k hk => ?_⟩ <;>
    obtain ⟨op, _, _, hop⟩ := decode_eq_ok h <;> cases op <;> cases hop
  · rw [WindowFlag.init_eq_bit, WindowFlag.fin_eq_bit, WindowFlag.toBits_ofBits]
    simp [flgField]
  · simp [dataField, hk]
  · simp [immField, hk]
  · simp [immField, hk]

/-- Settles O5: the decoder evaluated on V9's words. -/
theorem listedWordsDecode : Obligations.ListedWordsDecode :=
  ⟨rfl, rfl, rfl, rfl, rfl, rfl, rfl, rfl, rfl, rfl, rfl, rfl, rfl, rfl, rfl, rfl, rfl⟩

/-- Settles O7: the word passes the legality check and executes. -/
theorem stepRunsTheDecodedCommand : Obligations.StepRunsTheDecodedCommand :=
  fun _ _ _ _ => step_of_decode_ok

/-- Settles O8: the placed table word is the command's word, first in line with reset released. -/
theorem placedWordRunsNext : Obligations.PlacedWordRunsNext := by
  intro s i
  rw [State.withFetchWord, tableWord_toNat]
  exact step_of_decode_ok (withNextCommand_inputs s _) (withNextCommand_resetHeld s _) (decode_encode i)

end Sys2Proof
end

section
/-! What a step keeps (spec/10_state.md R20-R33, 60_exceptions.md R130-R141, 70_reset_and_hazards.md R160-R162): the
line of inputs, the configuration, the registers its input does not write, the response channel, and the invariant. -/

namespace Sys2Proof.Machine

open Safety

/-! ### Every step answers -/

/-- Every input is accepted (R130). -/
theorem acceptInput_answers (x : Input) (s : State) : ∃ t, acceptInput x s = .next t := by
  cases x with
  | assertReset | releaseReset | takeResponse => exact ⟨_, rfl⟩
  | command w =>
    cases hr : s.resetHeld with
    | true => exact ⟨s, acceptInput_command_of_held w hr⟩
    | false =>
      have hword : acceptInput (.command w) s = executeWord w s := if_neg (by simp [hr])
      rw [hword]
      cases hd : decode w with
      | error e => exact ⟨_, executeWord_of_error hd s⟩
      | ok i => exact executeWord_of_ok hd s ▸ exec_answers i s

/-- Every step answers a next state (R130, R167). -/
theorem step_answers (s : State) : ∃ t, step s = .next t := by
  cases hin : s.inputs with
  | nil => exact ⟨s, step_of_nil hin⟩
  | cons x rest => exact step_of_cons hin ▸ acceptInput_answers x _

/-! ### The fields no command touches -/

/-- The model's own fields, which no command touches: the configuration, the reset level and the line of inputs. -/
def SameSurroundings (s t : State) : Prop :=
  t.config = s.config ∧ t.resetHeld = s.resetHeld ∧ t.inputs = s.inputs

theorem exec_sameSurroundings {i : Instr} {s t : State} (h : exec i s = .next t) : SameSurroundings s t := by
  obtain ⟨_, rfl⟩ | ⟨_, _, _, rfl⟩ | ⟨_, _, _, rfl⟩ | ⟨_, _, rfl⟩ | ⟨_, rfl⟩ | ⟨_, _, _, rfl⟩ | ⟨_, _, _, rfl⟩
    | ⟨_, rfl⟩ | ⟨_, rfl⟩ | ⟨_, rfl⟩ | ⟨_, _, rfl⟩ := exec_cases h
  all_goals exact ⟨rfl, rfl, rfl⟩

/-- No input changes the configuration (R33) or the inputs still waiting. -/
theorem acceptInput_config_inputs {x : Input} {s t : State} (h : acceptInput x s = .next t) :
    t.config = s.config ∧ t.inputs = s.inputs := by
  obtain ⟨_, _, _, rfl⟩ | ⟨_, _, _, _, _, rfl⟩ | ⟨_, _, _, _, _, hexec⟩ | ⟨_, _, rfl⟩ | ⟨_, rfl⟩ | ⟨_, rfl⟩ :=
    acceptInput_cases h
  any_goals exact ⟨rfl, rfl⟩
  obtain ⟨hconfig, _, hinputs⟩ := exec_sameSurroundings hexec
  exact ⟨hconfig, hinputs⟩

theorem step_inputs {s t : State} (h : step s = .next t) : t.inputs = s.inputs.tail := by
  obtain ⟨hin, rfl⟩ | ⟨x, rest, hin, haccept⟩ := step_cases h
  · rw [hin, List.tail_nil]
  · rw [hin, (acceptInput_config_inputs haccept).2]
    rfl

theorem step_config {s t : State} (h : step s = .next t) : t.config = s.config := by
  obtain ⟨_, rfl⟩ | ⟨_, _, _, haccept⟩ := step_cases h
  · rfl
  · exact (acceptInput_config_inputs haccept).1

/-! ### The registers an input does not write -/

/-- The register `r` holds the same value in `t` as in `s`. -/
def Keeps (s t : State) : Register → Prop
  | .acc => t.acc = s.acc
  | .fcs => t.fcs = s.fcs
  | .phase => t.phase = s.phase
  | .flag => t.flag = s.flag
  | .err => t.err = s.err
  | .errcode => t.errcode = s.errcode

theorem Keeps.refl (s : State) (r : Register) : Keeps s s r := by
  cases r <;> rfl

theorem Keeps.trans {s t u : State} {r : Register} (h : Keeps s t r) (h' : Keeps t u r) : Keeps s u r := by
  cases r <;> exact Eq.trans h' h

/-- A state that differs from `s` in the registers `rs` at most. -/
def KeepsBut (rs : List Register) (s t : State) : Prop := ∀ r, r ∉ rs → Keeps s t r

/-- The phase errors are raised exactly where the command is not legal (R133-R136). -/
theorem phaseError_eq_none_iff (i : Instr) (p : Phase) : phaseError i p = none ↔ legalIn p i = true := by
  cases p <;> cases i <;> simp [phaseError, legalIn]

/-- An error writes `ERR` and `ERRCODE`, and neither when `ERR` is 1 already (R137). -/
theorem raiseProtocolError_keepsBut (e : ProtocolError) (s : State) :
    KeepsBut (errorWrites s) s (raiseProtocolError e s) := by
  intro r hr
  cases herr : s.err with
  | true => cases r <;> simp [Keeps, herr]
  | false => cases r <;> simp [errorWrites, herr] at hr <;> rfl

/-- What a legal command writes beside the response channel: its own registers, or those of its error. -/
def execWrites (s : State) (i : Instr) : List Register := if legalIn s.phase i then writesOf i else errorWrites s

theorem execWrites_of_legal {s : State} {i : Instr} (h : legalIn s.phase i = true) : execWrites s i = writesOf i :=
  if_pos h

theorem execWrites_of_phaseError {s : State} {i : Instr} {e : ProtocolError} (h : phaseError i s.phase = some e) :
    execWrites s i = errorWrites s :=
  if_neg fun hlegal => by simp [(phaseError_eq_none_iff i s.phase).2 hlegal] at h

/-- "Written by" (R21-R26), for one command. -/
theorem exec_keepsBut {i : Instr} {s t : State} (h : exec i s = .next t) : KeepsBut (execWrites s i) s t := by
  obtain ⟨rfl, rfl⟩ | ⟨_, rfl, hp, rfl⟩ | ⟨_, rfl, hp, rfl⟩ | ⟨rfl, hp, rfl⟩ | ⟨rfl, rfl⟩ | ⟨_, rfl, hp, rfl⟩
    | ⟨_, rfl, hp, rfl⟩ | ⟨rfl, rfl⟩ | ⟨rfl, rfl⟩ | ⟨rfl, rfl⟩ | ⟨e, he, rfl⟩ := exec_cases h
  any_goals
    rw [execWrites_of_legal (by simp [legalIn, *])]
    intro r hr
    cases r <;> simp [writesOf] at hr <;> rfl
  rw [execWrites_of_phaseError he]
  exact raiseProtocolError_keepsBut e s

/-- "Written by" (R21-R26), for one input. -/
theorem acceptInput_keepsBut {x : Input} {s t : State} (h : acceptInput x s = .next t) :
    KeepsBut (writtenBy x s) s t := by
  obtain ⟨w, rfl, hr, rfl⟩ | ⟨w, e, rfl, hr, hd, rfl⟩ | ⟨w, i, rfl, hr, hd, hexec⟩ | ⟨p, rfl, rfl⟩ | ⟨rfl, rfl⟩
    | ⟨rfl, rfl⟩ := acceptInput_cases h
  · exact fun r _ => Keeps.refl _ r
  · have hwrites : writtenBy (.command w) s = errorWrites s := by simp [writtenBy, hr, hd]
    exact hwrites ▸ raiseProtocolError_keepsBut .illegal s
  · have hwrites : writtenBy (.command w) s = execWrites s i := by simp [writtenBy, hr, hd, execWrites]
    exact hwrites ▸ exec_keepsBut hexec
  · intro r hr
    cases r <;> simp [writtenBy] at hr
  · exact fun r _ => by cases r <;> rfl
  · exact fun r _ => by cases r <;> rfl

/-- A step that changes a register took an input that writes it. -/
theorem step_written_of_not_keeps {s t : State} {r : Register} (h : step s = .next t) (hr : ¬ Keeps s t r) :
    ∃ x, s.inputs.head? = some x ∧ r ∈ writtenBy x s := by
  obtain ⟨_, rfl⟩ | ⟨x, rest, hin, haccept⟩ := step_cases h
  · exact absurd (Keeps.refl _ r) hr
  · refine ⟨x, by rw [hin, List.head?_cons], ?_⟩
    by_contra hx
    exact hr ((show Keeps s (setInputs rest s) r by cases r <;> rfl).trans (acceptInput_keepsBut haccept r hx))

/-- The four registers an error never writes are written by a legal command's own rule, or by reset. -/
theorem writtenBy_cases {x : Input} {s : State} {r : Register} (h : r ∈ writtenBy x s) (herr : r ≠ .err)
    (hcode : r ≠ .errcode) : (∃ i, x = .command (encode i) ∧ r ∈ writesOf i) ∨ ∃ p, x = .assertReset p := by
  have herror : r ∉ errorWrites s := by
    cases hs : s.err <;> simp [errorWrites, hs, herr, hcode]
  cases x with
  | assertReset p => exact .inr ⟨p, rfl⟩
  | releaseReset | takeResponse => simp [writtenBy] at h
  | command w =>
    left
    cases hd : decode w with
    | error e => simp [writtenBy, hd, herror] at h
    | ok i =>
      simp only [writtenBy, hd] at h
      obtain rfl := (decode_eq_ok_iff w i).1 hd
      refine ⟨i, rfl, ?_⟩
      cases hr : s.resetHeld <;> cases hl : legalIn s.phase i <;> simp_all

/-- Who writes a register other than `ERR` and `ERRCODE`. -/
theorem step_writer_of_not_keeps {s t : State} {r : Register} (h : step s = .next t) (hr : ¬ Keeps s t r)
    (herr : r ≠ .err) (hcode : r ≠ .errcode) :
    ∃ x, s.inputs.head? = some x ∧ ((∃ i, x = .command (encode i) ∧ r ∈ writesOf i) ∨ ∃ p, x = .assertReset p) :=
  (step_written_of_not_keeps h hr).imp fun _ hx => hx.imp_right fun hmem => writtenBy_cases hmem herr hcode

theorem acc_mem_writesOf {i : Instr} (h : .acc ∈ writesOf i) :
    i = .wend ∨ i = .clear ∨ (∃ imm, i = .ldlo imm) ∨ ∃ imm, i = .ldhi imm := by
  cases i <;> simp [writesOf] at h ⊢

theorem fcs_mem_writesOf {i : Instr} (h : .fcs ∈ writesOf i) :
    (∃ f, i = .wbegin f) ∨ (∃ b, i = .wbyte b) ∨ i = .wend ∨ i = .clear := by
  cases i <;> simp [writesOf] at h ⊢

theorem phase_mem_writesOf {i : Instr} (h : .phase ∈ writesOf i) : (∃ f, i = .wbegin f) ∨ i = .wend ∨ i = .clear := by
  cases i <;> simp [writesOf] at h ⊢

theorem flag_mem_writesOf {i : Instr} (h : .flag ∈ writesOf i) : (∃ f, i = .wbegin f) ∨ i = .clear := by
  cases i <;> simp [writesOf] at h ⊢

/-! ### The response channel -/

/-- A command keeps the channel, or is a read and appends one word (R28). -/
theorem exec_responses {i : Instr} {s t : State} (h : exec i s = .next t) :
    t.responses = s.responses
      ∨ ((i = .rdstate ∨ i = .rdwork ∨ i = .rdstatus) ∧ ∃ v, t.responses = s.responses ++ [v]) := by
  obtain ⟨_, rfl⟩ | ⟨_, _, _, rfl⟩ | ⟨_, _, _, rfl⟩ | ⟨_, _, rfl⟩ | ⟨_, rfl⟩ | ⟨_, _, _, rfl⟩ | ⟨_, _, _, rfl⟩
    | ⟨hi, rfl⟩ | ⟨hi, rfl⟩ | ⟨hi, rfl⟩ | ⟨_, _, rfl⟩ := exec_cases h
  any_goals exact .inl rfl
  · exact .inr ⟨.inl hi, _, rfl⟩
  · exact .inr ⟨.inr (.inl hi), _, rfl⟩
  · exact .inr ⟨.inr (.inr hi), _, rfl⟩

/-! ### The invariant -/

theorem ErrorCleared.consistent {t : State} (h : ErrorCleared t) : ErrorRegistersConsistent t := by
  obtain ⟨herr, hcode, _, _⟩ := h
  exact ⟨fun _ => hcode, fun ht => absurd ht (herr ▸ Bool.false_ne_true)⟩

theorem ErrorKeptOrRaised.consistent {s t : State} (h : ErrorKeptOrRaised s t) (hs : ErrorRegistersConsistent s) :
    ErrorRegistersConsistent t := by
  obtain ⟨herr, hcode⟩ | ⟨e, rfl⟩ := h
  · rwa [ErrorRegistersConsistent, herr, hcode]
  · exact raiseProtocolError_consistent e hs

/-- A step clears the error registers, or keeps or raises an error; each leaves them consistent. -/
theorem step_keeps_errorRegistersConsistent {s t : State} (h : step s = .next t) (hs : ErrorRegistersConsistent s) :
    ErrorRegistersConsistent t := by
  obtain ⟨_, hcleared⟩ | hkept := step_clears_or_errorKeptOrRaised h
  · exact hcleared.consistent
  · exact hkept.consistent hs

theorem heldInReset_of_released {t : State} (h : t.resetHeld = false) : HeldInReset t :=
  fun ht => absurd ht (h ▸ Bool.false_ne_true)

/-- While reset is held commands do nothing and the empty channel stays empty; reset itself sets the values (R160,
R162). -/
theorem acceptInput_keeps_heldInReset {x : Input} {s t : State} (h : acceptInput x s = .next t) (hs : HeldInReset s) :
    HeldInReset t := by
  obtain ⟨_, _, _, rfl⟩ | ⟨_, _, _, hr, _, rfl⟩ | ⟨_, _, _, hr, _, hexec⟩ | ⟨_, _, rfl⟩ | ⟨_, rfl⟩ | ⟨_, rfl⟩ :=
    acceptInput_cases h
  · exact hs
  · exact heldInReset_of_released hr
  · obtain ⟨_, hheld, _⟩ := exec_sameSurroundings hexec
    exact heldInReset_of_released (hheld.trans hr)
  · exact fun _ => ⟨rfl, rfl, rfl, rfl, rfl, rfl, rfl⟩
  · exact heldInReset_of_released (leaveReset_resetHeld s)
  · intro hr
    obtain ⟨hacc, hfcs, hphase, hflag, herr, hcode, hresponses⟩ := hs hr
    exact ⟨hacc, hfcs, hphase, hflag, herr, hcode, congrArg List.tail hresponses⟩

theorem step_keeps_heldInReset {s t : State} (h : step s = .next t) (hs : HeldInReset s) : HeldInReset t := by
  obtain ⟨_, rfl⟩ | ⟨x, rest, _, haccept⟩ := step_cases h
  · exact hs
  · exact acceptInput_keeps_heldInReset (s := setInputs rest s) haccept hs

/-! ### The obligations -/

/-- Settles O40: each part of the invariant is kept, the error registers by what a step does to them and the reset
values by what an input can do. -/
theorem stepKeepsTheInvariant : Obligations.StepKeepsTheInvariant := by
  rintro s t ⟨herrors, hheld⟩ h
  exact ⟨step_keeps_errorRegistersConsistent h herrors, step_keeps_heldInReset h hheld⟩

/-- Settles O39: at reset `ERR` and `ERRCODE` are 0 and the reset level is released. -/
theorem resetMeetsTheInvariant : Obligations.ResetMeetsTheInvariant :=
  fun c => ⟨⟨fun _ => resetWith_errcode c, fun h => absurd h Bool.false_ne_true⟩, heldInReset_of_released rfl⟩

/-- Settles O12: an input is taken off the line and no input touches the rest. -/
theorem stepTakesExactlyTheNextInput : Obligations.StepTakesExactlyTheNextInput :=
  fun _ _ => step_inputs

/-- Settles O38: no input changes the configuration, and the default is `Ones`. -/
theorem stepKeepsTheConfiguration : Obligations.StepKeepsTheConfiguration :=
  ⟨fun _ _ => step_config, reset_eq_resetWith_default⟩

/-- Settles O10: with nothing to take, the step is the identity. -/
theorem stepHoldsStateWithoutInput : Obligations.StepHoldsStateWithoutInput :=
  fun _ => step_of_nil

/-- Settles O11: whatever is first in line is accepted. -/
theorem stepAlwaysAnswersNext : Obligations.StepAlwaysAnswersNext :=
  step_answers

/-- Settles O31: a changed register is written by the input taken, and the legal commands that write it are those of
its row in R21-R24. -/
theorem registersChangeOnlyByTheirWriters : Obligations.RegistersChangeOnlyByTheirWriters := by
  intro s t h
  refine ⟨fun hacc => ?_, fun hfcs => ?_, fun hphase => ?_, fun hflag => ?_⟩
  · obtain ⟨x, hx, ⟨i, rfl, hi⟩ | hreset⟩ := step_writer_of_not_keeps (r := .acc) h hacc (by decide) (by decide)
    · refine ⟨_, hx, ?_⟩
      obtain rfl | rfl | ⟨imm, rfl⟩ | ⟨imm, rfl⟩ := acc_mem_writesOf hi
      exacts [.inl rfl, .inr (.inl rfl), .inr (.inr (.inl ⟨imm, rfl⟩)), .inr (.inr (.inr (.inl ⟨imm, rfl⟩)))]
    · exact ⟨x, hx, .inr (.inr (.inr (.inr hreset)))⟩
  · obtain ⟨x, hx, ⟨i, rfl, hi⟩ | hreset⟩ := step_writer_of_not_keeps (r := .fcs) h hfcs (by decide) (by decide)
    · refine ⟨_, hx, ?_⟩
      obtain ⟨f, rfl⟩ | ⟨b, rfl⟩ | rfl | rfl := fcs_mem_writesOf hi
      exacts [.inl ⟨f, rfl⟩, .inr (.inl ⟨b, rfl⟩), .inr (.inr (.inl rfl)), .inr (.inr (.inr (.inl rfl)))]
    · exact ⟨x, hx, .inr (.inr (.inr (.inr hreset)))⟩
  · obtain ⟨x, hx, ⟨i, rfl, hi⟩ | hreset⟩ := step_writer_of_not_keeps (r := .phase) h hphase (by decide) (by decide)
    · refine ⟨_, hx, ?_⟩
      obtain ⟨f, rfl⟩ | rfl | rfl := phase_mem_writesOf hi
      exacts [.inl ⟨f, rfl⟩, .inr (.inl rfl), .inr (.inr (.inl rfl))]
    · exact ⟨x, hx, .inr (.inr (.inr hreset))⟩
  · obtain ⟨x, hx, ⟨i, rfl, hi⟩ | hreset⟩ := step_writer_of_not_keeps (r := .flag) h hflag (by decide) (by decide)
    · refine ⟨_, hx, ?_⟩
      obtain ⟨f, rfl⟩ | rfl := flag_mem_writesOf hi
      exacts [.inl ⟨f, rfl⟩, .inr (.inl rfl)]
    · exact ⟨x, hx, .inr (.inr hreset)⟩

/-- Settles O34: a command keeps the channel or is a read; of the other inputs only reset and the host's taking touch
it. -/
theorem responsesComeOnlyFromReads : Obligations.ResponsesComeOnlyFromReads := by
  intro s t h
  obtain ⟨_, rfl⟩ | ⟨x, rest, hin, haccept⟩ := step_cases h
  · exact .inl rfl
  · rw [hin, List.head?_cons]
    obtain ⟨_, _, _, rfl⟩ | ⟨_, _, _, _, _, rfl⟩ | ⟨w, i, rfl, _, hd, hexec⟩ | ⟨p, rfl, rfl⟩ | ⟨_, rfl⟩ | ⟨rfl, rfl⟩ :=
      acceptInput_cases haccept
    · exact .inl rfl
    · exact .inl rfl
    · obtain rfl := (decode_eq_ok_iff w i).1 hd
      obtain hkept | ⟨hread, v, happended⟩ := exec_responses hexec
      · exact .inl hkept
      · exact .inr (.inl ⟨i, v, rfl, hread, happended⟩)
    · exact .inr (.inr (.inr ⟨⟨p, rfl⟩, rfl⟩))
    · exact .inl rfl
    · exact .inr (.inr (.inl ⟨rfl, rfl⟩))

/-- Settles O16: each of these inputs is one update of the state. -/
theorem releaseAndTakeChangeOneThing : Obligations.ReleaseAndTakeChangeOneThing := by
  refine ⟨fun s t p rest hin h => ?_, fun s rest hin => step_of_cons hin, fun s v vs rest hin hresponses => ?_,
    fun s rest hin hresponses => ?_⟩
  · rw [step_assertReset_of_cons hin, Host.Outcome.next.injEq] at h
    exact h ▸ ⟨rfl, rfl, rfl⟩
  · have htail : s.responses.tail = vs := by rw [hresponses, List.tail_cons]
    exact htail ▸ step_of_cons hin
  · have htail : s.responses.tail = s.responses := by rw [hresponses, List.tail_nil]
    have htake : takeOldestResponse (setInputs rest s) = { s with inputs := rest } := by
      rw [takeOldestResponse_eq, setInputs_responses, htail]
      rfl
    exact htake ▸ step_of_cons hin

/-- Settles O37: CLEAR's update reads nothing of the state but the four fields that agree. -/
theorem clearForgetsTheComputation : Obligations.ClearForgetsTheComputation := by
  intro s t hresponses hconfig hheld hinputs
  have hclear : clearRegisters s = clearRegisters t := by
    rw [clearRegisters_eq s, clearRegisters_eq t, hresponses, hconfig, hheld, hinputs]
  exact congrArg Host.Outcome.next hclear

end Sys2Proof.Machine
end

section
/-! Each command's effect where it completes (spec/40_window.md R85-R87, 41_control.md R100-R106), and the fields of the
status view (10_state.md R27). -/

namespace Sys2Proof.Machine

open Safety

/-! ### A window's values by the flag -/

/-- Entry by the flag (R67, R83). -/
theorem entryValue_eq_ite_flag (f : WindowFlag) (s : Word) :
    entryValue f s = if f = .only ∨ f = .first then 0xFFFFFFFF#32 else s := by
  simp only [entryValue, f.init_iff]
  rfl

/-- Exit by the flag (R67, R84). -/
theorem exitValue_eq_ite_flag (feed : FinalizeFeed) (f : WindowFlag) (r : Word) :
    exitValue feed f r = if f = .only ∨ f = .last then finalizeForm feed r else r := by
  simp only [exitValue, f.fin_iff, finalize_eq_finalizeForm]

/-! ### The commands in the phase that admits them -/

section

variable {s : State}

theorem exec_wbegin_of_idle (hp : s.phase = .idle) (f : WindowFlag) :
    exec (.wbegin f) s = .next { s with flag := f, fcs := entryValue f s.acc, phase := .inWindow } := by
  rw [exec_wbegin, if_neg (by simp [hp])]

theorem exec_wbyte_of_inWindow (hp : s.phase = .inWindow) (b : Byte) :
    exec (.wbyte b) s = .next { s with fcs := byteStep s.fcs b } := by
  rw [exec_wbyte, if_neg (by simp [hp]), byteStep_eq_byteForm]

theorem exec_wend_of_inWindow (hp : s.phase = .inWindow) :
    exec .wend s = .next { s with acc := exitValue s.config.finalizeFeed s.flag s.fcs, fcs := exitValue s.config.finalizeFeed s.flag s.fcs, phase := .idle } := by
  rw [exec_wend, if_neg (by simp [hp]), closeWindow_eq]

theorem exec_ldlo_of_idle (hp : s.phase = .idle) (imm : Half) :
    exec (.ldlo imm) s = .next { s with acc := withLowHalf s.acc imm } := by
  rw [exec_ldlo, if_neg (by simp [hp])]

theorem exec_ldhi_of_idle (hp : s.phase = .idle) (imm : Half) :
    exec (.ldhi imm) s = .next { s with acc := withHighHalf s.acc imm } := by
  rw [exec_ldhi, if_neg (by simp [hp])]

end

/-! ### The status view, bit by bit -/

/-- Bit `k` of the status is the field that stands there (R27). -/
theorem statusView_getLsbD (s : State) (k : Nat) :
    (statusView s).getLsbD k =
      if k < 1 then s.phase.toBit.getLsbD k
      else if k < 3 then s.flag.toBits.getLsbD (k - 1)
      else if k < 4 then (BitVec.ofBool s.err).getLsbD (k - 3)
      else s.errcode.getLsbD (k - 4) := by
  rw [statusView, BitVec.getLsbD_setWidth]
  simp only [BitVec.getLsbD_append, Nat.sub_sub]
  by_cases hk : k < 32
  · have h3 : k - 1 < 2 ↔ k < 3 ∨ k < 1 := by omega
    have h4 : k - (1 + 2) < 1 ↔ k < 4 := by omega
    grind
  · have hcode : s.errcode.getLsbD (k - 4) = false := BitVec.getLsbD_of_ge _ _ (by omega)
    have h1 : ¬ k < 1 := by omega
    have h3 : ¬ k < 3 := by omega
    have h4 : ¬ k < 4 := by omega
    simp [hk, h1, h3, h4, hcode]

theorem Phase.toBit_getLsbD_zero (p : Phase) : p.toBit.getLsbD 0 = true ↔ p = .inWindow := by
  cases p <;> decide

theorem statusView_errcode (s : State) : (statusView s).extractLsb' 4 4 = s.errcode := by
  apply BitVec.eq_of_getLsbD_eq
  intro k hk
  rw [BitVec.getLsbD_extractLsb', statusView_getLsbD]
  simp [hk, show ¬ 4 + k < 1 by omega, show ¬ 4 + k < 3 by omega]

theorem statusView_high (s : State) : (statusView s).extractLsb' 8 24 = 0#24 := by
  apply BitVec.eq_of_getLsbD_eq
  intro k hk
  rw [BitVec.getLsbD_extractLsb', statusView_getLsbD, BitVec.getLsbD_of_ge s.errcode _ (by omega)]
  simp [show ¬ 8 + k < 1 by omega, show ¬ 8 + k < 3 by omega, show ¬ 8 + k < 4 by omega]

theorem statusView_eq_zero {s : State} (hcode : s.errcode = 0#4) (herr : s.err = false) (hflag : s.flag = .middle)
    (hphase : s.phase = .idle) : statusView s = 0x00000000#32 := by
  rw [statusView, hcode, herr, hflag, hphase]
  decide

/-! ### The obligations -/

/-- Settles O17: in `Idle` the phase check passes, and the entry value is the flag's. -/
theorem wbeginOpensAWindow : Obligations.WbeginOpensAWindow := by
  intro f s hp
  rw [exec_wbegin_of_idle hp, entryValue_eq_ite_flag]

/-- Settles O18: in a window the phase check passes, and the byte step is its closed form. -/
theorem wbyteFeedsEightBits : Obligations.WbyteFeedsEightBits := by
  intro b s hp
  rw [exec_wbyte_of_inWindow hp, byteStep_eq_byteForm]

/-- Settles O19: in a window the phase check passes, and the exit value is the latched flag's. -/
theorem wendClosesTheWindow : Obligations.WendClosesTheWindow := by
  intro s hp
  rw [exec_wend_of_inWindow hp, exitValue_eq_ite_flag]

/-- Settles O20: the two commands' effects, which read no phase. -/
theorem nopAndClearComplete : Obligations.NopAndClearComplete :=
  ⟨exec_nop, exec_clear⟩

/-- Settles O21: in `Idle` the phase check passes and one half is written. -/
theorem halfwordLoadsWriteTheirHalf : Obligations.HalfwordLoadsWriteTheirHalf := by
  refine ⟨fun imm s hp => exec_ldlo_of_idle hp imm, fun imm s hp => ?_⟩
  rw [exec_ldhi_of_idle hp, withHighHalf, BitVec.or_comm]

/-- Settles O22: the three reads' effects, the status by its fields' places. -/
theorem readsAppendTheirWord : Obligations.ReadsAppendTheirWord :=
  ⟨exec_rdstate, exec_rdwork, exec_rdstatus⟩

/-- Settles O36: the bits of the status are those of its fields, and every field is 0 after reset and CLEAR. -/
theorem statusFieldsStandInTheirPlaces : Obligations.StatusFieldsStandInTheirPlaces := by
  refine ⟨fun s => ⟨?_, ?_, ?_, ?_, statusView_errcode s, statusView_high s⟩, statusView_eq_zero rfl rfl rfl rfl, fun s t h => ?_⟩
  · rw [statusView_getLsbD]
    exact s.phase.toBit_getLsbD_zero
  · rw [statusView_getLsbD, WindowFlag.init_eq_bit]
    rfl
  · rw [statusView_getLsbD, WindowFlag.fin_eq_bit]
    rfl
  · rw [statusView_getLsbD]
    cases s.err <;> rfl
  · rw [exec_clear, Host.Outcome.next.injEq] at h
    exact h ▸ statusView_eq_zero rfl rfl rfl rfl

end Sys2Proof.Machine
end

section
/-! The laws of the algorithm (spec/40_window.md Laws, 95_test_vectors.md V1, V2): a round is linear but for the bit it
feeds, so fed bits and the register can be followed apart; from that come the closed form of `Finalize` under `Ones` and
the reflected CRC. And windows put together: splitting, and the checksum for any window size. -/

namespace Sys2Proof.Machine

open Safety

/-! ### The round -/

/-- The bit 31 that the shift brings in is replaced, whichever it is. -/
theorem setBit31_sshiftRight_one (r : Word) (c : Bool) : setBit31 (r.sshiftRight 1) c = setBit31 (r >>> 1) c := by
  apply BitVec.eq_of_getLsbD_eq
  intro k _
  rw [setBit31_getLsbD, setBit31_getLsbD, BitVec.getLsbD_sshiftRight, BitVec.getLsbD_ushiftRight]
  by_cases hlow : k < 31
  · simp [hlow, show 1 + k < 32 by omega, show ¬ 32 ≤ k by omega]
  · simp [hlow]

/-- Bit 31 of a round tells the pre-shift bit 0, since `POLY[31]` is 1; the other bits are then the register's, shifted
and XORed with a known word. -/
theorem crcRound_injective (c : Bool) : Function.Injective fun r => crcRound r c := by
  intro r q (h : crcRound r c = crcRound q c)
  have hbit (k : Nat) : (crcRound r c).getLsbD k = (crcRound q c).getLsbD k := by rw [h]
  simp only [crcRound_getLsbD] at hbit
  have hpoly : poly.getLsbD 31 = true := by decide
  have hzero : r.getLsbD 0 = q.getLsbD 0 := by
    have h31 := hbit 31
    rw [hpoly, Bool.and_true, Bool.and_true] at h31
    exact Bool.xor_right_inj.1 h31
  apply BitVec.eq_of_getLsbD_eq
  intro k hk
  cases k with
  | zero => exact hzero
  | succ k =>
    have hshift := hbit k
    rw [hzero, if_pos (by omega), if_pos (by omega)] at hshift
    exact Bool.xor_left_inj.1 hshift

/-! ### The linear part of a round -/

theorem crcRound_false_eq_linForm (r : Word) : crcRound r false = linForm r := by
  rw [crcRound_eq_roundForm, roundForm, linForm]
  simp

/-- The fed bit enters a round at bit 31 and nowhere else (R80). -/
theorem crcRound_eq_linForm_xor (r : Word) (c : Bool) :
    crcRound r c = linForm r ^^^ ((if c then 1#32 else 0#32) <<< 31) := by
  have hcomm (a b d : Word) : a ^^^ b ^^^ d = a ^^^ d ^^^ b := by ac_rfl
  rw [crcRound_eq_roundForm, roundForm, linForm, hcomm]

theorem linForm_xor (r q : Word) : linForm (r ^^^ q) = linForm r ^^^ linForm q := by
  have hpoly (a b : Bool) (p : Word) :
      (if a ^^ b then p else 0#32) = (if a then p else 0#32) ^^^ (if b then p else 0#32) := by
    cases a <;> cases b <;> simp
  have hcomm (a b c d : Word) : a ^^^ b ^^^ (c ^^^ d) = a ^^^ c ^^^ (b ^^^ d) := by ac_rfl
  rw [linForm, linForm, linForm, BitVec.ushiftRight_xor_distrib, BitVec.getLsbD_xor, hpoly, hcomm]

theorem linForm_injective : Function.Injective linForm := by
  intro r q h
  exact crcRound_injective false (by simpa only [crcRound_false_eq_linForm] using h)

theorem linForm_iterate_zero (k : Nat) : linForm^[k] 0#32 = 0#32 :=
  Function.iterate_fixed (by decide) k

/-- On a word whose bit 0 is 0 the linear round is the shift. -/
theorem linForm_of_no_bit {r : Word} (h : r.getLsbD 0 = false) : linForm r = r >>> 1 := by
  rw [linForm, h]
  exact BitVec.xor_zero

theorem linForm_iterate_xor (k : Nat) (r q : Word) : linForm^[k] (r ^^^ q) = linForm^[k] r ^^^ linForm^[k] q := by
  induction k generalizing r q with
  | zero => rfl
  | succ k ih => simp only [Function.iterate_succ_apply, linForm_xor, ih]

/-- Rounds that all feed the same bit: a difference of two registers goes through the linear rounds (R91). -/
theorem roundForm_iterate_xor (c : Bool) (k : Nat) (r q : Word) :
    (roundForm · c)^[k] (r ^^^ q) = linForm^[k] r ^^^ (roundForm · c)^[k] q := by
  induction k generalizing r q with
  | zero => rfl
  | succ k ih =>
    have hround : roundForm (r ^^^ q) c = linForm r ^^^ roundForm q c := by
      simp only [← crcRound_eq_roundForm, crcRound_eq_linForm_xor, linForm_xor, BitVec.xor_assoc]
    rw [Function.iterate_succ_apply, Function.iterate_succ_apply, Function.iterate_succ_apply, hround, ih]

/-! ### `Finalize` under each feed -/

/-- 32 rounds that feed 1 take 0 to all ones, which the complement undoes (95_test_vectors.md S3). -/
theorem finalize_ones_eq_iterate (r : Word) : finalize .ones r = linForm^[32] r := by
  have hzero : (roundForm · true)^[32] 0#32 = 0xFFFFFFFF#32 := by decide +kernel
  have haffine : (roundForm · true)^[32] r = linForm^[32] r ^^^ 0xFFFFFFFF#32 := by
    rw [← hzero, ← roundForm_iterate_xor, BitVec.xor_zero]
  rw [finalize_eq_finalizeForm]
  calc (roundForm · true)^[32] r ^^^ 0xFFFFFFFF#32
    _ = linForm^[32] r ^^^ 0xFFFFFFFF#32 ^^^ 0xFFFFFFFF#32 := by rw [haffine]
    _ = linForm^[32] r := by rw [BitVec.xor_assoc, BitVec.xor_self, BitVec.xor_zero]

theorem finalize_ones_eq_zero_iff (r : Word) : finalize .ones r = 0#32 ↔ r = 0#32 := by
  rw [finalize_ones_eq_iterate]
  constructor
  · intro h
    exact linForm_injective.iterate 32 (h.trans (linForm_iterate_zero 32).symm)
  · rintro rfl
    exact linForm_iterate_zero 32

/-- A round that feeds the pre-shift bit 0 leaves bit 31 at 0: the fed bit and `POLY[31]` cancel. -/
theorem crcRound_lowBit_getLsbD_31 (r : Word) : (crcRound r (r.getLsbD 0)).getLsbD 31 = false := by
  have hpoly : poly.getLsbD 31 = true := by decide
  rw [crcRound_getLsbD, hpoly]
  simp

/-- The last round leaves bit 31 at 0, and the complement sets it. -/
theorem finalize_lowBit_getLsbD_31 (r : Word) : (finalize .lowBit r).getLsbD 31 = true := by
  have hlast (q : Word) : (finalizeRoundForm .lowBit q).getLsbD 31 = false := by
    rw [← crcRound_finalizeBit]
    exact crcRound_lowBit_getLsbD_31 q
  rw [finalize, finalizeRounds_eq_iterate, finalRounds, Function.iterate_succ_apply', BitVec.getLsbD_not, hlast]
  rfl

theorem le_finalize_lowBit (r : Word) : 0x80000000 ≤ (finalize .lowBit r).toNat :=
  Nat.ge_two_pow_of_testBit (finalize_lowBit_getLsbD_31 r)

/-! ### The byte step -/

/-- Shifting a byte into place and one round on: the next bit of the byte comes in at bit 31. -/
theorem shiftLeft_succ_shiftRight_xor_bit (b : Byte) {k : Nat} (hk : k < 8) :
    ((b.setWidth 32 <<< (32 - k)) >>> 1) ^^^ ((if b.getLsbD k then 1#32 else 0#32) <<< 31)
      = b.setWidth 32 <<< (32 - (k + 1)) := by
  have hinsert (c : Bool) : ∀ j < 32, ((if c then 1#32 else 0#32) <<< 31).getLsbD j = (decide (j = 31) && c) := by
    revert c
    decide
  apply BitVec.eq_of_getLsbD_eq
  intro j hj
  rw [BitVec.getLsbD_xor, hinsert _ j hj, BitVec.getLsbD_ushiftRight, BitVec.getLsbD_shiftLeft,
    BitVec.getLsbD_shiftLeft, BitVec.getLsbD_setWidth, BitVec.getLsbD_setWidth]
  obtain hlow | rfl : j < 31 ∨ j = 31 := by omega
  · have hindex : 1 + j - (32 - k) = j - (32 - (k + 1)) := by omega
    have hplace : 1 + j < 32 - k ↔ j < 32 - (k + 1) := by omega
    simp [hindex, hplace, hlow.ne, hj, show 1 + j < 32 by omega]
  · have hindex : 31 - (31 - k) = k := by omega
    have hplace : ¬ 31 < 31 - k := by omega
    simp [hindex, hplace, show k < 32 by omega]

/-- After `k` rounds the register's part is linear and the byte's first `k` bits stand at the top. -/
theorem foldl_crcRound_bits (r : Word) (b : Byte) {k : Nat} (hk : k ≤ 8) :
    ((List.range k).map b.getLsbD).foldl crcRound r = linForm^[k] r ^^^ (b.setWidth 32 <<< (32 - k)) := by
  induction k with
  | zero => simp
  | succ k ih =>
    have hlow : (b.setWidth 32 <<< (32 - k)).getLsbD 0 = false := by
      rw [BitVec.getLsbD_shiftLeft]
      simp [show 0 < 32 - k by omega]
    rw [List.range_succ, List.map_append, List.foldl_append, ih (by omega), List.map_singleton, List.foldl_cons,
      List.foldl_nil, crcRound_eq_linForm_xor, linForm_xor, linForm_of_no_bit hlow, BitVec.xor_assoc,
      shiftLeft_succ_shiftRight_xor_bit b (by omega), Function.iterate_succ_apply']

/-- `ByteStep` is eight linear rounds, with the byte XORed into bits 31:24 (95_test_vectors.md V2). -/
theorem byteStep_eq_linForm_xor (r : Word) (b : Byte) : byteStep r b = linForm^[8] r ^^^ (b.setWidth 32 <<< 24) :=
  foldl_crcRound_bits r b (le_refl 8)

/-! ### The reflected CRC -/

/-- A byte in place comes down one bit per linear round, as long as zeros stand below it. -/
theorem linForm_iterate_shiftLeft (b : Byte) {k : Nat} (hk : k ≤ 24) :
    linForm^[k] (b.setWidth 32 <<< k) = b.setWidth 32 := by
  induction k with
  | zero => simp
  | succ k ih =>
    have hlow : (b.setWidth 32 <<< (k + 1)).getLsbD 0 = false := by
      rw [BitVec.getLsbD_shiftLeft]
      simp
    have hdown : (b.setWidth 32 <<< (k + 1)) >>> 1 = b.setWidth 32 <<< k := by
      apply BitVec.eq_of_getLsbD_eq
      intro j hj
      rw [BitVec.getLsbD_ushiftRight, BitVec.getLsbD_shiftLeft, BitVec.getLsbD_shiftLeft, BitVec.getLsbD_setWidth,
        BitVec.getLsbD_setWidth]
      have hindex : 1 + j - (k + 1) = j - k := by omega
      have hplace : 1 + j < k + 1 ↔ j < k := by omega
      by_cases htop : 1 + j < 32
      · simp [hindex, hplace, hj, htop]
      · simp [hindex, hplace, hj, htop, BitVec.getLsbD_of_ge b (j - k) (by omega)]
    rw [Function.iterate_succ_apply, linForm_of_no_bit hlow, hdown, ih (by omega)]

/-- After the 32 finalizing rounds a byte fed at the top stands at the bottom: the reflected byte step. -/
theorem finalize_ones_byteStep (r : Word) (b : Byte) :
    finalize .ones (byteStep r b) = reflectedByte (finalize .ones r) b := by
  simp only [finalize_ones_eq_iterate, byteStep_eq_linForm_xor, reflectedByte, linForm_iterate_xor]
  calc linForm^[32] (linForm^[8] r) ^^^ linForm^[32] (b.setWidth 32 <<< 24)
    _ = linForm^[8] (linForm^[32] r) ^^^ linForm^[8] (linForm^[24] (b.setWidth 32 <<< 24)) := by
      simp only [← Function.iterate_add_apply]
    _ = linForm^[8] (linForm^[32] r) ^^^ linForm^[8] (b.setWidth 32) := by
      rw [linForm_iterate_shiftLeft b (le_refl 24)]

theorem finalize_ones_foldl (r : Word) (w : List Byte) :
    finalize .ones (w.foldl byteStep r) = w.foldl reflectedByte (finalize .ones r) :=
  (List.foldl_hom (finalize .ones) fun r b => (finalize_ones_byteStep r b).symm).symm

theorem windowStep_ones_only (s : Word) (w : List Byte) :
    windowStep .ones s w .only = w.foldl reflectedByte 0xDEBB20E3#32 := by
  have hinit : finalize .ones initValue = 0xDEBB20E3#32 := by decide +kernel
  rw [← hinit, ← finalize_ones_foldl]
  rfl

/-! ### Windows put together -/

/-- Two windows, the first without FIN and the second without INIT, are one: its INIT is the first's and its FIN the
second's (40_window.md Laws). -/
theorem windowStep_windowStep {f g h : WindowFlag} (hf : f.fin = false) (hg : g.init = false) (hinit : h.init = f.init)
    (hfin : h.fin = g.fin) (feed : FinalizeFeed) (s : Word) (u v : List Byte) :
    windowStep feed (windowStep feed s u f) v g = windowStep feed s (u ++ v) h := by
  simp only [windowStep, exitValue_of_no_fin hf, entryValue_of_no_init hg, List.foldl_append]
  rw [exitValue, exitValue, hfin, entryValue, entryValue, hinit]

/-- A window with INIT set ignores the incoming state (90_conflicts.md C4). -/
theorem windowStep_of_init {f : WindowFlag} (h : f.init = true) (feed : FinalizeFeed) (s s' : Word) (w : List Byte) :
    windowStep feed s w f = windowStep feed s' w f := by
  rw [windowStep_eq, windowStep_eq, entryValue_of_init h, entryValue_of_init h]

/-- The fold of `Step` over the windows of a source (R114). -/
def stepSegments (feed : FinalizeFeed) (data : List Byte) (s : Word) (segs : List Segment) : Word :=
  segs.foldl (fun s g => windowStep feed s (segmentBytes data g) g.flag) s

theorem checksum_eq_map_stepSegments (feed : FinalizeFeed) (W : Nat) (data : List Byte) :
    checksum feed W data = (partition data.length W).map (stepSegments feed data 0#32) := rfl

/-- The windows from position `s` on are, together, one LAST window over the rest of the source. -/
theorem stepSegments_laterSegments (feed : FinalizeFeed) (data : List Byte) (W fuel s : Nat) (x : Word) :
    stepSegments feed data x (laterSegments data.length W fuel s) = windowStep feed x (data.drop s) .last := by
  have hlast (s : Nat) (x : Word) :
      stepSegments feed data x [⟨s, data.length - s, .last⟩] = windowStep feed x (data.drop s) .last := by
    rw [← segmentBytes_last]
    rfl
  induction fuel generalizing s x with
  | zero => exact hlast s x
  | succ fuel ih =>
    rw [laterSegments]
    split
    · calc stepSegments feed data (windowStep feed x ((data.drop s).take W) .middle)
            (laterSegments data.length W fuel (s + W))
        _ = windowStep feed (windowStep feed x ((data.drop s).take W) .middle) ((data.drop s).drop W) .last := by
          rw [ih, List.drop_drop]
        _ = windowStep feed x (data.drop s) .last := by
          rw [windowStep_windowStep (f := .middle) (g := .last) (h := .last) rfl rfl rfl rfl, List.take_append_drop]
    · exact hlast s x

/-- The window size never changes the checksum (R115). -/
theorem checksum_eq_windowStep_only (feed : FinalizeFeed) {W : Nat} (hW : 1 ≤ W) (data : List Byte) :
    checksum feed W data = some (windowStep feed 0#32 data .only) := by
  rw [checksum_eq_map_stepSegments]
  rcases Nat.lt_or_ge W data.length with hlong | hshort
  · rw [partition_of_lt hW hlong, Option.map_some, Option.some.injEq]
    calc stepSegments feed data (windowStep feed 0#32 (data.take W) .first)
          (laterSegments data.length W (data.length / W) W)
      _ = windowStep feed (windowStep feed 0#32 (data.take W) .first) (data.drop W) .last :=
        stepSegments_laterSegments ..
      _ = windowStep feed 0#32 data .only := by
        rw [windowStep_windowStep (f := .first) (g := .last) (h := .only) rfl rfl rfl rfl, List.take_append_drop]
  · rw [partition_of_le hW hshort, Option.map_some, Option.some.injEq]
    exact congrArg (windowStep feed 0#32 · .only) List.take_length

/-- A checksum exists only for a window size of at least 1, and is then that of one ONLY window. -/
theorem eq_windowStep_only_of_checksum {feed : FinalizeFeed} {W : Nat} {data : List Byte} {c : Word}
    (h : checksum feed W data = some c) : c = windowStep feed 0#32 data .only := by
  rcases Nat.eq_zero_or_pos W with rfl | hW
  · cases h
  · rw [checksum_eq_windowStep_only feed hW, Option.some.injEq] at h
    exact h.symm

theorem le_windowStep_lowBit {f : WindowFlag} (h : f.fin = true) (s : Word) (w : List Byte) :
    0x80000000 ≤ (windowStep .lowBit s w f).toNat := by
  rw [windowStep_eq, exitValue_of_fin h]
  exact le_finalize_lowBit _

/-! ### The obligations -/

/-- Settles O44: the inserted bit replaces the one in which the two shifts differ. -/
theorem roundIgnoresTheKindOfShift : Obligations.RoundIgnoresTheKindOfShift := by
  intro r c
  rw [setBit31_sshiftRight_one]
  rfl

/-- Settles O45: a round is injective, and the registers are finitely many. -/
theorem roundIsABijection : Obligations.RoundIsABijection := by
  intro c
  exact Finite.injective_iff_bijective.1 (crcRound_injective c)

/-- Settles O46: both sides are the same eight linear rounds and the byte at bits 31:24. -/
theorem byteStepIsAffineInTheByte : Obligations.ByteStepIsAffineInTheByte := by
  intro r b
  rw [byteStep_eq_linForm_xor, byteStep_eq_linForm_xor r 0#8]
  simp

/-- Settles O47: the fed ones and the complement cancel, and the linear round is injective. -/
theorem finalizeOnesIsTheZeroFeed : Obligations.FinalizeOnesIsTheZeroFeed :=
  ⟨linForm_xor, finalize_ones_eq_iterate, finalize_ones_eq_zero_iff, by decide +kernel⟩

/-- Settles O48: the last finalize round leaves bit 31 at 0 for the complement to set; a checksum is the result of an
ONLY window. -/
theorem finalizeLowBitSetsTheTopBit : Obligations.FinalizeLowBitSetsTheTopBit :=
  ⟨finalize_lowBit_getLsbD_31, fun s w _ hfin => le_windowStep_lowBit hfin s w,
    fun _ _ _ h => eq_windowStep_only_of_checksum h ▸ le_windowStep_lowBit rfl _ _⟩

/-- Settles O49: INIT discards the state; an empty window is its entry and its exit. -/
theorem entryInvertingAndEmptyWindows : Obligations.EntryInvertingAndEmptyWindows := by
  refine ⟨fun feed s w => ⟨windowStep_of_init rfl .., windowStep_of_init rfl ..⟩, fun feed s => ?_⟩
  simp only [windowStep_eq, exitValue_eq_ite_flag, entryValue_eq_ite_flag, List.foldl_nil]
  exact ⟨rfl, rfl, rfl, rfl⟩

/-- Settles O50: the four ways of cutting a window in two. -/
theorem splittingAWindowKeepsTheResult : Obligations.SplittingAWindowKeepsTheResult :=
  fun feed s u v =>
    ⟨windowStep_windowStep (f := .first) (g := .last) (h := .only) rfl rfl rfl rfl feed s u v,
      windowStep_windowStep (f := .first) (g := .middle) (h := .first) rfl rfl rfl rfl feed s u v,
      windowStep_windowStep (f := .middle) (g := .middle) (h := .middle) rfl rfl rfl rfl feed s u v,
      windowStep_windowStep (f := .middle) (g := .last) (h := .last) rfl rfl rfl rfl feed s u v⟩

/-- Settles O51: `Finalize` turns each byte step into the reflected one; zlib's value is its complement. -/
theorem onlyWindowIsTheReflectedCrc : Obligations.OnlyWindowIsTheReflectedCrc := by
  intro s w
  have hinit : 0x2144DF1C#32 ^^^ 0xFFFFFFFF#32 = 0xDEBB20E3#32 := by decide
  refine ⟨windowStep_ones_only s w, ?_⟩
  rw [windowStep_ones_only, zlibCrc32, hinit, BitVec.xor_assoc, BitVec.xor_self, BitVec.xor_zero]

/-- Settles O54: the windows of a partition are, by the splitting law, one ONLY window. -/
theorem checksumDoesNotDependOnTheWindowSize : Obligations.ChecksumDoesNotDependOnTheWindowSize :=
  fun feed _ data hW => checksum_eq_windowStep_only feed hW data

end Sys2Proof.Machine
end

section
/-! Runs of commands: repeated reads (spec/20_memory.md C3), a window's commands with reads among them (40_window.md
R88), the host's sequence (45_host_windowing.md R113-R115) and `ld32` (30_encoding.md R74). The commands are executed
apart from the response channel and the line of inputs first; the run of the block follows them step for step. -/

namespace Sys2Proof.Machine

open Safety

/-! ### Runs -/

theorem run_one (s : State) : Safety.run 1 s = step s := by
  obtain ⟨t, h⟩ := step_answers s
  rw [run_succ_of_next h, run_zero, h]

/-- A run continues where a shorter one ended. -/
theorem run_add {j : Nat} {s t : State} (h : Safety.run j s = .next t) (k : Nat) :
    Safety.run (j + k) s = Safety.run k t := by
  induction j generalizing s with
  | zero =>
    rw [run_zero, Host.Outcome.next.injEq] at h
    rw [Nat.zero_add, h]
  | succ j ih =>
    obtain ⟨u, hu⟩ := step_answers s
    rw [run_succ_of_next hu] at h
    rw [Nat.add_right_comm, run_succ_of_next hu, ih h]

theorem run_succ {j : Nat} {s t : State} (h : Safety.run j s = .next t) : Safety.run (j + 1) s = step t := by
  rw [run_add h, run_one]

/-! ### Reads, and what keeps their word -/

/-- A read appends its word and changes no register (R104-R106). -/
theorem exec_of_readWord {i : Instr} {s : State} {v : Word} (h : readWord s i = some v) :
    exec i s = .next { s with responses := s.responses ++ [v] } := by
  cases i with
  | rdstate => cases h; exact exec_rdstate s
  | rdwork => cases h; exact exec_rdwork s
  | rdstatus => cases h; exact exec_rdstatus s
  | nop | wbegin | wbyte | wend | clear | ldlo | ldhi => cases h

/-- A read command first in line appends its word. -/
theorem step_of_readWord {i : Instr} {s : State} {v : Word} {rest : List Input} (h : readWord s i = some v)
    (hr : s.resetHeld = false) (hin : s.inputs = .command (encode i) :: rest) :
    step s = .next { s with responses := s.responses ++ [v], inputs := rest } :=
  (step_of_decode_ok hin hr (decode_encode i)).trans (exec_of_readWord (s := { s with inputs := rest }) h)

/-- The word of a read is a function of the registers it reads. -/
theorem readWord_congr {i : Instr} {s t : State} (h : ∀ r ∈ registersRead i, Keeps s t r) :
    readWord t i = readWord s i := by
  cases i with
  | nop | wbegin | wbyte | wend | clear | ldlo | ldhi => rfl
  | rdstate => exact congrArg some (h .acc (by decide))
  | rdwork => exact congrArg some (h .fcs (by decide))
  | rdstatus =>
    have hphase : t.phase = s.phase := h .phase (by decide)
    have hflag : t.flag = s.flag := h .flag (by decide)
    have herr : t.err = s.err := h .err (by decide)
    have hcode : t.errcode = s.errcode := h .errcode (by decide)
    simp only [readWord, statusForm, hphase, hflag, herr, hcode]

theorem registersRead_ne_nil {i : Instr} {s : State} {v : Word} (h : readWord s i = some v) :
    registersRead i ≠ [] := by
  cases i with
  | nop | wbegin | wbyte | wend | clear | ldlo | ldhi => cases h
  | rdstate | rdwork | rdstatus => exact List.cons_ne_nil _ _

/-- Reset writes all that a read reads, so an input that writes none of it leaves reset released. -/
theorem acceptInput_resetHeld_of_not_written {i : Instr} {x : Input} {s t : State} {v : Word}
    (h : acceptInput x s = .next t) (hread : readWord s i = some v)
    (hkept : ∀ r ∈ registersRead i, r ∉ writtenBy x s) (hr : s.resetHeld = false) : t.resetHeld = false := by
  obtain ⟨_, _, _, rfl⟩ | ⟨_, _, _, _, _, rfl⟩ | ⟨_, _, _, _, _, hexec⟩ | ⟨p, rfl, rfl⟩ | ⟨_, rfl⟩ | ⟨_, rfl⟩ :=
    acceptInput_cases h
  · exact hr
  · exact hr
  · obtain ⟨_, hheld, _⟩ := exec_sameSurroundings hexec
    exact hheld.trans hr
  · obtain ⟨r, hmem⟩ := List.exists_mem_of_ne_nil _ (registersRead_ne_nil hread)
    exact absurd (by cases r <;> simp [writtenBy]) (hkept r hmem)
  · rfl
  · exact hr

/-- What holds of the state after the first read and `k` of the inputs between: the rest is still in line, reset is
released, and the registers the read reads are as at the first read. -/
def StillReads (i : Instr) (s : State) (line : List Input) (u : State) : Prop :=
  u.inputs = line ∧ u.resetHeld = false ∧ ∀ r ∈ registersRead i, Keeps s u r

theorem StillReads.step {i : Instr} {s u : State} {v : Word} {x : Input} {line : List Input}
    (h : StillReads i s (x :: line) u) (hread : readWord s i = some v)
    (hkept : ∀ r ∈ registersRead i, r ∉ writtenBy x u) : ∃ t, step u = .next t ∧ StillReads i s line t := by
  obtain ⟨hin, hr, hsame⟩ := h
  obtain ⟨t, ht⟩ := step_answers u
  have haccept : acceptInput x (setInputs line u) = .next t := (step_of_cons hin).symm.trans ht
  have hwrites : ∀ r ∈ registersRead i, r ∉ writtenBy x (setInputs line u) := hkept
  have hread' : readWord (setInputs line u) i = some v :=
    (readWord_congr (t := setInputs line u) fun r hmem => by cases r <;> exact hsame _ hmem).trans hread
  refine ⟨t, ht, (acceptInput_config_inputs haccept).2,
    acceptInput_resetHeld_of_not_written haccept hread' hwrites hr, fun r hmem => (hsame r hmem).trans ?_⟩
  have hkeeps : Keeps (setInputs line u) t r := acceptInput_keepsBut haccept r (hwrites r hmem)
  cases r <;> exact hkeeps

/-- As long as nothing that is read is written, the run reaches a state from which the read reads the same. -/
theorem run_stillReads {i : Instr} {v : Word} {s : State} {between rest : List Input} (hread : readWord s i = some v)
    (hr : s.resetHeld = false) (hin : s.inputs = .command (encode i) :: between ++ rest)
    (hkept : ∀ (k : Nat) (x : Input) (u : State), between[k]? = some x → Safety.run (k + 1) s = .next u →
      ∀ r ∈ registersRead i, r ∉ writtenBy x u)
    {k : Nat} (hk : k ≤ between.length) :
    ∃ u, Safety.run (k + 1) s = .next u ∧ StillReads i s (between.drop k ++ rest) u := by
  induction k with
  | zero =>
    refine ⟨_, (run_one s).trans (step_of_readWord hread hr hin), rfl, hr, fun r _ => ?_⟩
    cases r <;> rfl
  | succ k ih =>
    obtain ⟨u, hrun, hstill⟩ := ih (by omega)
    rw [List.drop_eq_getElem_cons (by omega), List.cons_append] at hstill
    obtain ⟨t, ht, hstill'⟩ := hstill.step hread (hkept k _ u (List.getElem?_eq_getElem _) hrun)
    exact ⟨t, (run_succ hrun).trans ht, hstill'⟩

/-! ### Commands apart from the interfaces -/

/-- The commands of a list, one after another. -/
def execAll : List Instr → State → Host.Outcome State Fault Refusal
  | [], s => .next s
  | i :: is, s =>
    match exec i s with
    | .next t => execAll is t
    | .fault r => .fault r
    | .refused r => .refused r

theorem execAll_nil (s : State) : execAll [] s = .next s := rfl

theorem execAll_cons {i : Instr} {s t : State} (h : exec i s = .next t) (is : List Instr) :
    execAll (i :: is) s = execAll is t := by
  rw [execAll, h]

theorem execAll_append {is : List Instr} {s t : State} (h : execAll is s = .next t) (js : List Instr) :
    execAll (is ++ js) s = execAll js t := by
  induction is generalizing s with
  | nil =>
    rw [execAll_nil, Host.Outcome.next.injEq] at h
    rw [List.nil_append, h]
  | cons i is ih =>
    obtain ⟨u, hu⟩ := exec_answers i s
    rw [execAll_cons hu] at h
    rw [List.cons_append, execAll_cons hu, ih h]

theorem execAll_resetHeld {is : List Instr} {s t : State} (h : execAll is s = .next t) :
    t.resetHeld = s.resetHeld := by
  induction is generalizing s with
  | nil => cases h; rfl
  | cons i is ih =>
    obtain ⟨u, hu⟩ := exec_answers i s
    rw [execAll_cons hu] at h
    obtain ⟨_, hheld, _⟩ := exec_sameSurroundings hu
    exact (ih h).trans hheld

/-- The interfaces of a state: its response channel and its line of inputs. -/
def withChannels (vs : List Word) (xs : List Input) (s : State) : State := { s with responses := vs, inputs := xs }

/-- A command that is no NOP and no read neither reads nor writes the interfaces. -/
theorem exec_withChannels {i : Instr} (hi : passive i = false) {s t : State} (h : exec i s = .next t) (vs : List Word)
    (xs : List Input) : exec i (withChannels vs xs s) = .next (withChannels vs xs t) := by
  cases i with
  | nop | rdstate | rdwork | rdstatus => cases hi
  | clear => cases h; rfl
  | wbegin | wbyte | wend | ldlo | ldhi =>
    obtain ⟨_, _, phase, _, _, _, _, _, _, _⟩ := s
    cases phase <;> cases h <;> rfl

/-- A NOP appends nothing and a read one word. -/
theorem exec_of_passive {i : Instr} (hi : passive i = true) (s : State) :
    ∃ vs : List Word, vs.length = [i].countP (fun i => passive i && i != .nop)
      ∧ exec i s = .next { s with responses := s.responses ++ vs } := by
  cases i with
  | nop => exact ⟨[], rfl, by rw [List.append_nil, exec_nop]⟩
  | rdstate => exact ⟨[_], rfl, exec_rdstate s⟩
  | rdwork => exact ⟨[_], rfl, exec_rdwork s⟩
  | rdstatus => exact ⟨[_], rfl, exec_rdstatus s⟩
  | wbegin | wbyte | wend | clear | ldlo | ldhi => cases hi

/-- One command of the line. -/
theorem step_asInputs_cons {i : Instr} {is : List Instr} {vs : List Word} {rest : List Input} {s : State}
    (hr : s.resetHeld = false) :
    step (withChannels vs (asInputs (i :: is) ++ rest) s) = exec i (withChannels vs (asInputs is ++ rest) s) :=
  step_of_decode_ok rfl hr (decode_encode i)

/-- NOPs and reads may stand anywhere among commands (R88): the run of the whole list leaves what the others leave, and
one response word per read. -/
theorem run_asInputs_of_execAll_filter {cs : List Instr} {s t : State} (hr : s.resetHeld = false)
    (h : execAll (cs.filter fun i => !passive i) s = .next t) (vs : List Word) (rest : List Input) :
    ∃ rs : List Word, rs.length = cs.countP (fun i => passive i && i != .nop)
      ∧ Safety.run cs.length (withChannels vs (asInputs cs ++ rest) s) = .next (withChannels (vs ++ rs) rest t) := by
  induction cs generalizing s vs with
  | nil =>
    cases h
    exact ⟨[], rfl, by rw [List.append_nil]; rfl⟩
  | cons i is ih =>
    cases hi : passive i with
    | true =>
      rw [List.filter_cons_of_neg (by simp [hi])] at h
      obtain ⟨us, hus, hexec⟩ := exec_of_passive hi (withChannels vs (asInputs is ++ rest) s)
      obtain ⟨rs, hrs, hrun⟩ := ih hr h (vs ++ us)
      refine ⟨us ++ rs, ?_, ?_⟩
      · rw [List.length_append, hus, hrs, ← List.countP_append, List.singleton_append]
      · rw [List.length_cons, run_succ_of_next ((step_asInputs_cons hr).trans hexec), ← List.append_assoc]
        exact hrun
    | false =>
      rw [List.filter_cons_of_pos (by simp [hi])] at h
      obtain ⟨u, hu⟩ := exec_answers i s
      rw [execAll_cons hu] at h
      obtain ⟨_, hheld, _⟩ := exec_sameSurroundings hu
      obtain ⟨rs, hrs, hrun⟩ := ih (hheld.trans hr) h vs
      refine ⟨rs, ?_, ?_⟩
      · rw [hrs, List.countP_cons_of_neg (by simp [hi])]
      · rw [List.length_cons, run_succ_of_next ((step_asInputs_cons hr).trans (exec_withChannels hi hu _ _))]
        exact hrun

/-- Without NOPs and reads there is no response. -/
theorem run_asInputs_of_execAll {cs : List Instr} (hcs : ∀ i ∈ cs, passive i = false) {s t : State}
    (hr : s.resetHeld = false) (h : execAll cs s = .next t) (vs : List Word) (rest : List Input) :
    Safety.run cs.length (withChannels vs (asInputs cs ++ rest) s) = .next (withChannels vs rest t) := by
  have hfilter : (cs.filter fun i => !passive i) = cs := List.filter_eq_self.2 fun i hi => by rw [hcs i hi]; rfl
  have hcount : cs.countP (fun i => passive i && i != .nop) = 0 :=
    List.countP_eq_zero.2 fun i hi => by simp [hcs i hi]
  obtain ⟨rs, hrs, hrun⟩ := run_asInputs_of_execAll_filter hr (hfilter.symm ▸ h) vs rest
  rw [hcount, List.length_eq_zero_iff] at hrs
  rwa [hrs, List.append_nil] at hrun

/-! ### A window's commands -/

/-- A state between windows: both registers hold the last window's result, under its flag (R87). -/
def betweenWindows (v : Word) (f : WindowFlag) (s : State) : State :=
  { s with acc := v, fcs := v, phase := .idle, flag := f }

theorem execAll_wbytes {s : State} (hp : s.phase = .inWindow) (w : List Byte) :
    execAll (w.map .wbyte) s = .next { s with fcs := w.foldl byteStep s.fcs } := by
  induction w generalizing s with
  | nil => rfl
  | cons b w ih =>
    rw [List.map_cons, execAll_cons (exec_wbyte_of_inWindow hp b)]
    exact ih hp

/-- A window's commands compute `Step` (R84, R88). -/
theorem execAll_windowCommands {s : State} (hp : s.phase = .idle) (f : WindowFlag) (w : List Byte) :
    execAll (windowCommands f w) s = .next (betweenWindows (windowStep s.config.finalizeFeed s.acc w f) f s) := by
  rw [windowCommands, List.cons_append, execAll_cons (exec_wbegin_of_idle hp f), execAll_append (execAll_wbytes rfl w),
    execAll_cons (exec_wend_of_inWindow rfl)]
  rfl

theorem passive_of_mem_windowCommands {f : WindowFlag} {w : List Byte} {i : Instr} (h : i ∈ windowCommands f w) :
    passive i = false := by
  simp only [windowCommands, List.cons_append, List.mem_cons, List.mem_append, List.mem_map, List.not_mem_nil,
    or_false] at h
  obtain rfl | ⟨b, _, rfl⟩ | rfl := h <;> rfl

/-! ### The windows of a source -/

/-- The commands of a list of windows of a source (R113). -/
def segmentsCommands (data : List Byte) (segs : List Segment) : List Instr :=
  segs.flatMap fun g => windowCommands g.flag (segmentBytes data g)

/-- The flag of the last of a list of windows, `f` when it is empty. -/
def lastFlag (f : WindowFlag) (segs : List Segment) : WindowFlag := segs.foldl (fun _ g => g.flag) f

theorem lastFlag_laterSegments (f : WindowFlag) (L W fuel s : Nat) : lastFlag f (laterSegments L W fuel s) = .last := by
  induction fuel generalizing f s with
  | zero => rfl
  | succ fuel ih =>
    rw [laterSegments]
    split
    · exact ih _ _
    · rfl

/-- The commands of windows that follow a window fold `Step` over them (R114). -/
theorem execAll_segmentsCommands (data : List Byte) (segs : List Segment) (v : Word) (f : WindowFlag) (s : State) :
    execAll (segmentsCommands data segs) (betweenWindows v f s)
      = .next (betweenWindows (stepSegments s.config.finalizeFeed data v segs) (lastFlag f segs) s) := by
  induction segs generalizing v f with
  | nil => rfl
  | cons g gs ih =>
    rw [segmentsCommands, List.flatMap_cons, execAll_append (execAll_windowCommands rfl _ _)]
    exact ih _ _

/-- A partition begins with a window that ignores the incoming state, and ends with ONLY or LAST (R111). -/
theorem partition_eq_cons (L : Nat) {W : Nat} (hW : 1 ≤ W) :
    ∃ g gs, partition L W = some (g :: gs) ∧ g.flag.init = true
      ∧ lastFlag g.flag gs = if L ≤ W then .only else .last := by
  rcases Nat.lt_or_ge W L with hlong | hshort
  · exact ⟨_, _, partition_of_lt hW hlong, rfl, by rw [lastFlag_laterSegments, if_neg (by omega)]⟩
  · exact ⟨_, _, partition_of_le hW hshort, rfl, by rw [if_pos hshort]; rfl⟩

/-- The windows of a partition compute the checksum from any state in `Idle` (R114). -/
theorem execAll_partition {s : State} (hp : s.phase = .idle) {W : Nat} (hW : 1 ≤ W) (data : List Byte) :
    ∃ segs c, partition data.length W = some segs ∧ checksum s.config.finalizeFeed W data = some c
      ∧ execAll (segmentsCommands data segs) s
        = .next (betweenWindows c (if data.length ≤ W then .only else .last) s) := by
  obtain ⟨g, gs, hpartition, hinit, hlast⟩ := partition_eq_cons data.length hW
  refine ⟨g :: gs, _, hpartition, by rw [checksum_eq_map_stepSegments, hpartition]; rfl, ?_⟩
  rw [segmentsCommands, List.flatMap_cons, execAll_append (execAll_windowCommands hp _ _), ← hlast,
    windowStep_of_init hinit _ s.acc 0#32]
  exact execAll_segmentsCommands data gs _ _ s

theorem passive_of_mem_segmentsCommands {data : List Byte} {segs : List Segment} {i : Instr}
    (h : i ∈ segmentsCommands data segs) : passive i = false := by
  obtain ⟨g, _, hi⟩ := List.mem_flatMap.1 h
  exact passive_of_mem_windowCommands hi

/-! ### The host's sequence -/

/-- What the host sends before the windows (R113, R120). -/
def clearCommands (clearFirst : Bool) : List Instr := if clearFirst then [.clear] else []

/-- The state the windows start from. -/
def clearedState (clearFirst : Bool) (s : State) : State := if clearFirst then clearRegisters s else s

theorem hostSequence_of_partition {clearFirst : Bool} {W : Nat} {data : List Byte} {segs : List Segment}
    (h : partition data.length W = some segs) :
    hostSequence clearFirst W data
      = some (clearCommands clearFirst ++ segmentsCommands data segs ++ [.rdstatus, .rdstate]) := by
  rw [hostSequence, h]
  rfl

theorem execAll_clearCommands (clearFirst : Bool) (s : State) :
    execAll (clearCommands clearFirst) s = .next (clearedState clearFirst s) := by
  cases clearFirst <;> rfl

theorem clearedState_phase {clearFirst : Bool} {s : State} (h : s.phase = .idle ∨ clearFirst = true) :
    (clearedState clearFirst s).phase = .idle := by
  cases clearFirst with
  | true => rfl
  | false => exact h.resolve_right Bool.false_ne_true

/-- The two reads at the end of the host's sequence (R113). -/
theorem run_rdstatus_rdstate {s : State} (hr : s.resetHeld = false) (vs : List Word) (rest : List Input) :
    Safety.run 2 (withChannels vs (asInputs [.rdstatus, .rdstate] ++ rest) s)
      = .next (withChannels (vs ++ [statusForm s, s.acc]) rest s) := by
  have hstatus : step (withChannels vs (asInputs [.rdstatus, .rdstate] ++ rest) s)
      = .next (withChannels (vs ++ [statusForm s]) (asInputs [.rdstate] ++ rest) s) := step_of_readWord rfl hr rfl
  have hstate : step (withChannels (vs ++ [statusForm s]) (asInputs [.rdstate] ++ rest) s)
      = .next (withChannels (vs ++ [statusForm s] ++ [s.acc]) rest s) := step_of_readWord rfl hr rfl
  rw [run_succ_of_next hstatus, run_one, hstate, List.append_assoc, List.singleton_append]

/-- Commands that do not respond, then the two reads. -/
theorem run_then_reads {cs : List Instr} (hcs : ∀ i ∈ cs, passive i = false) {s t : State} (hr : s.resetHeld = false)
    (h : execAll cs s = .next t) (vs : List Word) (rest : List Input) :
    Safety.run (cs ++ [Instr.rdstatus, .rdstate]).length
        (withChannels vs (asInputs (cs ++ [.rdstatus, .rdstate]) ++ rest) s)
      = .next (withChannels (vs ++ [statusForm t, t.acc]) rest t) := by
  have hrun := run_asInputs_of_execAll hcs hr h vs (asInputs [Instr.rdstatus, .rdstate] ++ rest)
  rw [asInputs, List.map_append, List.append_assoc, List.length_append]
  exact (run_add hrun 2).trans (run_rdstatus_rdstate ((execAll_resetHeld h).trans hr) vs rest)

theorem passive_of_mem_hostCommands {clearFirst : Bool} {data : List Byte} {segs : List Segment} :
    ∀ i ∈ clearCommands clearFirst ++ segmentsCommands data segs, passive i = false := by
  intro i hi
  obtain hclear | hsegments := List.mem_append.1 hi
  · cases clearFirst with
    | true => rw [List.mem_singleton.1 hclear]; rfl
    | false => cases hclear
  · exact passive_of_mem_segmentsCommands hsegments

theorem statusForm_err (s : State) : (statusForm s).getLsbD 3 = s.err := by
  rw [← statusView_eq_statusForm, statusView_getLsbD]
  cases s.err <;> rfl

/-! ### Loading a word -/

/-- The two halves of a word, loaded high first, are the word (R74). -/
theorem withLowHalf_withHighHalf_halves (a v : Word) :
    withLowHalf (withHighHalf a (BitVec.ofNat 16 (v.toNat / 2 ^ 16))) (BitVec.ofNat 16 v.toNat) = v := by
  apply BitVec.eq_of_getLsbD_eq
  intro k hk
  rw [withLowHalf_getLsbD, withHighHalf_getLsbD, BitVec.getLsbD_ofNat, BitVec.getLsbD_ofNat, Nat.testBit_div_two_pow]
  by_cases hlow : k < 16
  · simp [hlow, BitVec.testBit_toNat]
  · simp [hlow, BitVec.testBit_toNat, show k - 16 < 16 by omega, show k - 16 + 16 = k by omega]

/-- The commands of `ld32 v` (R74). -/
def ld32Commands (v : Word) : List Instr :=
  [.ldhi (BitVec.ofNat 16 (v.toNat / 2 ^ 16)), .ldlo (BitVec.ofNat 16 v.toNat)]

theorem assemble_ld32 (v : Word) : assemble (.ld32 v.toNat) = .ok ((ld32Commands v).map encode) := by
  have hv := v.isLt
  rw [assemble, AsmLine.wellFormed, decide_eq_true (by omega), if_pos rfl]
  rfl

theorem passive_of_mem_ld32Commands {v : Word} : ∀ i ∈ ld32Commands v, passive i = false := by
  simp [ld32Commands, passive]

theorem execAll_ld32Commands {s : State} (hp : s.phase = .idle) (v : Word) :
    execAll (ld32Commands v) s = .next { s with acc := v } := by
  have hldlo (a : Word) (imm : Half) :
      exec (.ldlo imm) (setAccumulator a s) = .next (setAccumulator (withLowHalf a imm) s) :=
    exec_ldlo_of_idle (s := setAccumulator a s) hp imm
  rw [ld32Commands, execAll_cons (exec_ldhi_of_idle hp _), ← setAccumulator_eq, execAll_cons (hldlo _ _),
    withLowHalf_withHighHalf_halves, execAll_nil, setAccumulator_eq]

/-! ### The obligations -/

/-- Settles O35: after any inputs that write nothing the read reads, the read meets the same registers. -/
theorem repeatedReadsAgree : Obligations.RepeatedReadsAgree := by
  intro i v s between rest hread hr hin hkept
  refine ⟨step_of_readWord hread hr hin, ?_⟩
  obtain ⟨t, hrun, hint, hrt, hsame⟩ := run_stillReads hread hr hin hkept (le_refl between.length)
  rw [List.drop_length, List.nil_append] at hint
  exact ⟨t, hrun, step_of_readWord ((readWord_congr hsame).trans hread) hrt hint⟩

/-- Settles O52: the window's own commands compute `Step`, and NOPs and reads among them only respond. -/
theorem windowCommandsComputeTheStep : Obligations.WindowCommandsComputeTheStep := by
  intro s f w cs rest hp hr hin hcs
  have hexec := (congrArg (execAll · s) hcs).trans (execAll_windowCommands hp f w)
  obtain ⟨rs, hrs, hrun⟩ := run_asInputs_of_execAll_filter hr hexec s.responses rest
  rw [← hin] at hrun
  exact ⟨rs, hrs, hrun⟩

/-- Settles O55: CLEAR if it is sent, the windows of the partition, and the two reads. -/
theorem hostSequenceReadsTheChecksum : Obligations.HostSequenceReadsTheChecksum := by
  intro s clearFirst W data rest hW hp hr
  have hconfig : (clearedState clearFirst s).config = s.config := by cases clearFirst <;> rfl
  obtain ⟨segs, c, hpartition, hchecksum, hwindows⟩ := execAll_partition (clearedState_phase hp) hW data
  have hexec := (execAll_append (execAll_clearCommands clearFirst s) (segmentsCommands data segs)).trans hwindows
  refine ⟨_, c, _, hostSequence_of_partition hpartition, hconfig ▸ hchecksum,
    run_then_reads passive_of_mem_hostCommands hr hexec s.responses rest, ?_, ?_⟩
  · cases clearFirst with
    | true => rw [Bool.not_true, Bool.and_false]; rfl
    | false => rw [Bool.not_false, Bool.and_true]; rfl
  · rw [statusForm_err]
    cases clearFirst with
    | true => exact (Bool.and_false _).symm
    | false => exact (Bool.and_true _).symm

/-- Settles O57: LDHI and LDLO of the value's halves. -/
theorem ld32LoadsTheAccumulator : Obligations.Ld32LoadsTheAccumulator := by
  intro s v words rest hp hr hwords hin
  rw [assemble_ld32, Except.ok.injEq] at hwords
  have hline : s.inputs = asInputs (ld32Commands v) ++ rest := by rw [hin, ← hwords, List.map_map]; rfl
  have hrun := run_asInputs_of_execAll passive_of_mem_ld32Commands hr (execAll_ld32Commands hp v) s.responses rest
  rw [← hline] at hrun
  exact hrun

end Sys2Proof.Machine
end

section
/-! The assembler's words (spec/30_encoding.md R73, R74), its numbers, and the rendering of a result
(45_host_windowing.md R119). -/

namespace Sys2Proof.Machine

open Safety

/-! ### Digits -/

/-- Digits one after another: the second part goes on from the value of the first. -/
theorem digitsValue_append (base acc : Nat) (cs ds : List Char) :
    digitsValue base acc (cs ++ ds) = (digitsValue base acc cs).bind fun v => digitsValue base v ds := by
  induction cs generalizing acc with
  | nil => rfl
  | cons c cs ih =>
    rw [List.cons_append, digitsValue, digitsValue]
    cases digitValue c with
    | none => rfl
    | some d =>
      by_cases hd : d < base
      · simp only [if_pos hd, ih]
      · simp only [if_neg hd, Option.bind_none]

/-- One digit. -/
theorem digitsValue_singleton {base d : Nat} {c : Char} (hc : digitValue c = some d) (hd : d < base) (acc : Nat) :
    digitsValue base acc [c] = some (acc * base + d) := by
  rw [digitsValue, hc]
  simp only [if_pos hd, digitsValue]

/-! ### The rendering -/

theorem digitValue_hexDigit (d : BitVec 4) : digitValue (hexDigit d) = some d.toNat := by
  revert d
  decide

theorem hexDigit_range (d : BitVec 4) :
    ('0' ≤ hexDigit d ∧ hexDigit d ≤ '9') ∨ ('a' ≤ hexDigit d ∧ hexDigit d ≤ 'f') := by
  revert d
  decide

/-- The first `k` digits of a rendering are the word without its last `8 - k` digits. -/
theorem digitsValue_firstDigits (v : Word) {k : Nat} (hk : k ≤ 8) :
    digitsValue 16 0 ((List.range k).map fun j => hexDigit (v.extractLsb' (28 - 4 * j) 4))
      = some (v.toNat / 2 ^ (32 - 4 * k)) := by
  induction k with
  | zero => exact congrArg some (Nat.div_eq_of_lt v.isLt).symm
  | succ k ih =>
    have hdigit : (v.extractLsb' (28 - 4 * k) 4).toNat = v.toNat / 2 ^ (28 - 4 * k) % 16 := by
      rw [BitVec.extractLsb'_toNat, Nat.shiftRight_eq_div_pow]
    have hhigh : v.toNat / 2 ^ (32 - 4 * k) = v.toNat / 2 ^ (28 - 4 * k) / 16 := by
      rw [Nat.div_div_eq_div_mul, show 32 - 4 * k = 28 - 4 * k + 4 by omega, Nat.pow_add]
    rw [List.range_succ, List.map_append, digitsValue_append, ih (by omega), Option.bind_some, List.map_singleton,
      digitsValue_singleton (digitValue_hexDigit _) (BitVec.isLt _), hdigit, hhigh, Nat.div_add_mod',
      show 28 - 4 * k = 32 - 4 * (k + 1) by omega]

/-! ### A number as a field -/

/-- A number that fits a field, put into a word, is the number as a word. -/
theorem setWidth_ofNat_of_lt {n k : Nat} (h : n < 2 ^ k) : (BitVec.ofNat k n).setWidth 32 = BitVec.ofNat 32 n := by
  apply BitVec.eq_of_toNat_eq
  rw [BitVec.toNat_setWidth, BitVec.toNat_ofNat, BitVec.toNat_ofNat, Nat.mod_eq_of_lt h]

theorem encode_wbyte_ofNat {b : Nat} (h : b ≤ 255) :
    encode (.wbyte (BitVec.ofNat 8 b)) = 0x20000000#32 ||| BitVec.ofNat 32 b := by
  rw [encode, setWidth_ofNat_of_lt (by omega)]

/-- The high half of a word as a word (R74). -/
theorem setWidth_ofNat_high (v : Word) : (BitVec.ofNat 16 (v.toNat / 2 ^ 16)).setWidth 32 = v >>> 16 := by
  have hv := v.isLt
  rw [setWidth_ofNat_of_lt (by omega)]
  apply BitVec.eq_of_toNat_eq
  rw [BitVec.toNat_ofNat, BitVec.toNat_ushiftRight, Nat.shiftRight_eq_div_pow, Nat.mod_eq_of_lt (by omega)]

/-- The low half of a word as a word (R74). -/
theorem setWidth_ofNat_low (v : Word) : (BitVec.ofNat 16 v.toNat).setWidth 32 = v &&& 0x0000FFFF#32 := by
  rw [← setWidth_extractLsb'_zero_eq_and (n := 16) v (by decide)]
  rfl

/-! ### The assembler's words -/

theorem assemble_of_wellFormed {line : AsmLine} (h : line.wellFormed = true) : assemble line = .ok (wordsOf line) :=
  if_pos h

theorem assemble_of_not_wellFormed {line : AsmLine} (h : line.wellFormed = false) :
    assemble line = .error .operandRange :=
  if_neg (by simp [h])

/-- A line whose only check is `p`, with its words by another name. -/
theorem assemble_eq_ite {line : AsmLine} {p : Prop} [Decidable p] {ws : List Word} (hp : line.wellFormed = decide p)
    (hws : p → wordsOf line = ws) : assemble line = if p then .ok ws else .error .operandRange := by
  by_cases h : p
  · rw [if_pos h, assemble_of_wellFormed (hp.trans (decide_eq_true h)), hws h]
  · rw [if_neg h, assemble_of_not_wellFormed (hp.trans (decide_eq_false h))]

/-- The check on a list of bytes (R73, R74). -/
theorem all_le_eq_decide (bs : List Nat) : (bs.all fun b => decide (b ≤ 0xFF)) = decide (∀ b ∈ bs, b ≤ 255) := by
  rw [Bool.eq_iff_iff, List.all_eq_true, decide_eq_true_eq]
  exact forall₂_congr fun b _ => decide_eq_true_iff

/-- A window's words are those of its commands (R74, R88). -/
theorem windowWords_eq_map_encode (f : WindowFlag) (bs : List Byte) :
    windowWords f bs = (windowCommands f bs).map encode := by
  simp [windowWords, windowCommands]

/-- The words of `wbytes` (R74). -/
theorem map_encode_wbyte_ofNat {bs : List Nat} (h : ∀ b ∈ bs, b ≤ 255) :
    (bs.map fun b => encode (.wbyte (BitVec.ofNat 8 b))) = bs.map fun b => 0x20000000#32 ||| BitVec.ofNat 32 b :=
  List.map_congr_left fun b hb => encode_wbyte_ofNat (h b hb)

/-! ### UTF-8 -/

theorem toNat_char_lt (c : Char) : c.toNat < 0x110000 := by
  obtain h | ⟨_, h⟩ := c.valid
  · exact h.trans (by decide)
  · exact h

/-- Lean's encoder gives the bytes of the standard's ranges (log entry 18); the remainders it takes of the leading
byte's bits change nothing below the end of the range. -/
theorem utf8EncodeChar_eq_utf8Form (c : Char) :
    (String.utf8EncodeChar c).map UInt8.toBitVec = (utf8Form c.toNat).map (BitVec.ofNat 8) := by
  have hval : c.val.toNat = c.toNat := rfl
  have hbyte (k : Nat) : (UInt8.ofNat k).toBitVec = BitVec.ofNat 8 k := rfl
  have hbound := toNat_char_lt c
  rw [String.utf8EncodeChar, hval, utf8Form]
  generalize c.toNat = n at hbound
  by_cases h1 : n < 0x80
  · rw [if_pos h1, if_pos (by omega)]
    rfl
  by_cases h2 : n < 0x800
  · have hlead : n / 64 % 0x20 + 0xc0 = 0xC0 + n / 64 := by omega
    rw [if_neg h1, if_pos h2, if_neg (by omega), if_pos (by omega), hlead, Nat.add_comm (n % 0x40)]
    rfl
  by_cases h3 : n < 0x10000
  · have hlead : n / 4096 % 0x10 + 0xe0 = 0xE0 + n / 4096 := by omega
    rw [if_neg h1, if_neg h2, if_pos h3, if_neg (by omega), if_neg (by omega), if_pos (by omega), hlead,
      Nat.add_comm (n % 0x40), Nat.add_comm (n / 64 % 0x40)]
    rfl
  · have hlead : n / 262144 % 0x08 + 0xf0 = 0xF0 + n / 262144 := by omega
    rw [if_neg h1, if_neg h2, if_neg h3, if_neg (by omega), if_neg (by omega), if_neg (by omega), hlead,
      Nat.add_comm (n % 0x40), Nat.add_comm (n / 64 % 0x40), Nat.add_comm (n / 4096 % 0x40)]
    rfl

theorem utf8Bytes_eq_map_utf8Form (text : List Char) :
    utf8Bytes text = (text.flatMap fun c => utf8Form c.toNat).map (BitVec.ofNat 8) := by
  rw [utf8Bytes, List.map_flatMap]
  exact congrArg (text.flatMap ·) (funext utf8EncodeChar_eq_utf8Form)

/-- Every code point's bytes are bytes. -/
theorem utf8Form_le {n : Nat} (hn : n < 0x110000) : ∀ b ∈ utf8Form n, b ≤ 255 := by
  unfold utf8Form
  split_ifs <;> simp only [List.forall_mem_cons, List.not_mem_nil, false_imp_iff, implies_true, and_true] <;> omega

theorem utf8Form_flatMap_le (text : List Char) : ∀ b ∈ text.flatMap fun c => utf8Form c.toNat, b ≤ 255 := by
  intro b hb
  obtain ⟨c, _, hc⟩ := List.mem_flatMap.1 hb
  exact utf8Form_le (toNat_char_lt c) b hc

/-! ### The obligations -/

/-- Settles O58: the digits of a rendering are the word's hex digits, from the top. -/
theorem renderingIsEightHexDigits : Obligations.RenderingIsEightHexDigits := by
  refine ⟨fun v => ⟨?_, ?_, fun c hc => ?_⟩, by decide⟩
  · rw [renderHex, List.length_map, List.length_range]
  · rw [renderHex, digitsValue_firstDigits v (le_refl 8)]
    exact congrArg some (Nat.div_one _)
  · obtain ⟨j, _, rfl⟩ := List.mem_map.1 hc
    exact hexDigit_range _

/-- Settles O56: each row's check and words; the operands as fields of a word, and a text by its UTF-8 bytes. -/
theorem assemblerFollowsTheSyntaxTable : Obligations.AssemblerFollowsTheSyntaxTable := by
  have hwindow (f : WindowFlag) (bs : List Nat) : assemble (.window f bs)
      = if ∀ b ∈ bs, b ≤ 255 then .ok ((windowCommands f (bs.map (BitVec.ofNat 8))).map encode)
        else .error .operandRange :=
    assemble_eq_ite (all_le_eq_decide bs) fun _ => windowWords_eq_map_encode f _
  have hwbytes (bs : List Nat) : assemble (.wbytes bs)
      = if ∀ b ∈ bs, b ≤ 255 then .ok (bs.map fun b => 0x20000000#32 ||| BitVec.ofNat 32 b)
        else .error .operandRange :=
    assemble_eq_ite (all_le_eq_decide bs) map_encode_wbyte_ofNat
  refine ⟨⟨rfl, rfl, rfl, rfl, rfl, rfl, rfl, rfl, rfl, rfl⟩, fun b => ?_, fun n => ?_, fun n => ?_, fun w => ?_,
    fun v => ?_, fun n hn => ⟨?_, ?_⟩, hwbytes, hwindow, fun f bs hbs => ?_, fun f text => ?_⟩
  · exact assemble_eq_ite rfl fun h => congrArg (fun w => [w]) (encode_wbyte_ofNat h)
  · exact assemble_eq_ite rfl fun h => by rw [wordsOf, encode, setWidth_ofNat_of_lt (by omega)]
  · exact assemble_eq_ite rfl fun h => by rw [wordsOf, encode, setWidth_ofNat_of_lt (by omega)]
  · have hfits : (AsmLine.word w.toNat).wellFormed = true := decide_eq_true (Nat.le_of_lt_succ w.isLt)
    rw [assemble_of_wellFormed hfits, wordsOf, BitVec.ofNat_toNat, BitVec.setWidth_eq]
  · rw [assemble_ld32, ← setWidth_ofNat_high, ← setWidth_ofNat_low]
    rfl
  · exact assemble_of_not_wellFormed (decide_eq_false (by omega))
  · exact assemble_of_not_wellFormed (decide_eq_false (by omega))
  · refine ⟨_, (hwbytes bs).trans (if_pos hbs), (hwindow f bs).trans ?_⟩
    rw [if_pos hbs, ← windowWords_eq_map_encode, ← map_encode_wbyte_ofNat hbs, windowWords, List.map_map]
    rfl
  · rw [hwindow, if_pos (utf8Form_flatMap_le text), ← utf8Bytes_eq_map_utf8Form, ← windowWords_eq_map_encode]
    exact assemble_of_wellFormed rfl

end Sys2Proof.Machine
end

section
/-! From the source of a line to its words (spec/30_encoding.md R73, R74): each operand is read as one token whatever
stands after it, so a line is its mnemonic and its operands; then the numbers and the flag names are read back. -/

namespace Sys2Proof.Machine

open Safety

/-! ### Numbers -/

theorem digitValue_digitChar {d : Nat} (h : d < 16) : digitValue d.digitChar = some d := by
  revert d
  decide

/-- The digits of a number in a base have the number's value. -/
theorem digitsValue_toDigits {b : Nat} (hb : 1 < b) (hb' : b ≤ 16) (n : Nat) :
    digitsValue b 0 (Nat.toDigits b n) = some n := by
  induction n using Nat.strongRecOn with
  | _ n ih =>
    rw [Nat.toDigits_eq_if hb]
    split
    next hn => rw [digitsValue_singleton (digitValue_digitChar (by omega)) hn, Nat.zero_mul, Nat.zero_add]
    next hn =>
      have hmod : n % b < b := Nat.mod_lt n (by omega)
      rw [digitsValue_append, ih (n / b) (Nat.div_lt_self (by omega) hb), Option.bind_some,
        digitsValue_singleton (digitValue_digitChar (by omega)) hmod, Nat.div_add_mod']

theorem mem_toDigits {b n : Nat} {c : Char} (hb : 1 < b) (h : c ∈ Nat.toDigits b n) :
    ∃ d < b, c = d.digitChar := by
  induction n using Nat.strongRecOn with
  | _ n ih =>
    rw [Nat.toDigits_eq_if hb] at h
    split at h
    next hn => exact ⟨n, hn, List.mem_singleton.1 h⟩
    next hn =>
      obtain hhigh | hlast := List.mem_append.1 h
      · exact ih (n / b) (Nat.div_lt_self (by omega) hb) hhigh
      · exact ⟨n % b, Nat.mod_lt n (by omega), List.mem_singleton.1 hlast⟩

/-- Letters without an `x` are read in decimal. -/
theorem numberValue_of_no_x {cs : List Char} (hne : cs ≠ []) (hx : 'x' ∉ cs) :
    numberValue cs = digitsValue 10 0 cs := by
  unfold numberValue
  split
  next => exact absurd rfl hne
  next => exact absurd (by decide) hx
  next => exact absurd (by simp) hx
  next => rfl

theorem numberValue_hex {ds : List Char} (hne : ds ≠ []) :
    numberValue ('0' :: 'x' :: ds) = digitsValue 16 0 ds := by
  cases ds with
  | nil => exact absurd rfl hne
  | cons d ds => rfl

/-- A number of source is read as the number (R73). -/
theorem numberValue_numberText (hex : Bool) (n : Nat) : numberValue (numberText hex n) = some n := by
  cases hex with
  | true => exact (numberValue_hex Nat.toDigits_ne_nil).trans (digitsValue_toDigits (by decide) (by decide) n)
  | false =>
    have hx : 'x' ∉ Nat.toDigits 10 n := by
      intro h
      obtain ⟨d, hd, hc⟩ := mem_toDigits (by decide) h
      revert d
      decide
    exact (numberValue_of_no_x Nat.toDigits_ne_nil hx).trans (digitsValue_toDigits (by decide) (by decide) n)

/-! ### Names and operands -/

/-- The digits of a number are letters of a word. -/
theorem digitChar_plain {d : Nat} (h : d < 16) : d.digitChar ≠ ' ' ∧ d.digitChar ≠ Char.ofNat 9
    ∧ d.digitChar ≠ ',' ∧ d.digitChar ≠ ';' ∧ d.digitChar ≠ quoteChar := by
  revert d
  decide

theorem isName_toDigits {b : Nat} (hb : 1 < b) (hb' : b ≤ 16) (n : Nat) : IsName (Nat.toDigits b n) := by
  refine ⟨Nat.toDigits_ne_nil, fun c hc => ?_⟩
  obtain ⟨d, hd, rfl⟩ := mem_toDigits hb hc
  exact digitChar_plain (by omega)

theorem isName_numberText (hex : Bool) (n : Nat) : IsName (numberText hex n) := by
  cases hex with
  | true =>
    obtain ⟨_, hdigits⟩ := isName_toDigits (b := 16) (by decide) (by decide) n
    refine ⟨List.cons_ne_nil _ _, List.forall_mem_cons.2 ⟨by decide, List.forall_mem_cons.2 ⟨by decide, hdigits⟩⟩⟩
  | false => exact isName_toDigits (by decide) (by decide) n

/-- `IsName` as a check that evaluates. -/
def checkName (cs : List Char) : Bool :=
  !cs.isEmpty && cs.all fun c => decide (c ≠ ' ' ∧ c ≠ Char.ofNat 9 ∧ c ≠ ',' ∧ c ≠ ';' ∧ c ≠ quoteChar)

theorem isName_of_checkName {cs : List Char} (h : checkName cs = true) : IsName cs := by
  obtain ⟨hne, hcs⟩ := Bool.and_eq_true_iff.1 h
  exact ⟨by simpa using hne, fun c hc => of_decide_eq_true (List.all_eq_true.1 hcs c hc)⟩

theorem isName_flagText (f : WindowFlag) : IsName (flagText f) :=
  isName_of_checkName (by cases f <;> decide)

/-- Every mnemonic is a name. -/
theorem isName_of_lookup_keywordNames {m : List Char} {k : Keyword} (h : keywordNames.lookup m = some k) :
    IsName m := by
  obtain ⟨l₁, l₂, hsplit, _⟩ := List.lookup_eq_some_iff.1 h
  have hmem : (m, k) ∈ keywordNames := by simp [hsplit]
  have hall : (keywordNames.all fun p => checkName p.1) = true := by decide
  exact isName_of_checkName (List.all_eq_true.1 hall _ hmem)

/-- A flag name is read as its flag (R73). -/
theorem flagOperand_flagText (f : WindowFlag) : flagOperand (.word (flagText f)) = .ok f := by
  cases f <;> rfl

/-- Any other name is refused (R73). -/
theorem flagOperand_of_ne {name : List Char} (h : ∀ f, name ≠ flagText f) :
    flagOperand (.word name) = .error .unknownFlag := by
  have hnames : ∀ p ∈ flagNames, p.1 = flagText p.2 := by decide
  have hnone : flagNames.lookup name = none :=
    List.lookup_eq_none_iff.2 fun p hp => bne_iff_ne.2 (hnames p hp ▸ h p.2)
  rw [flagOperand, hnone]

theorem numberOperand_numberText (hex : Bool) (n : Nat) : numberOperand (.word (numberText hex n)) = .ok n := by
  rw [numberOperand, numberValue_numberText]

theorem numberOperands_numberText (hex : Bool) (ns : List Nat) :
    numberOperands (ns.map fun n => .word (numberText hex n)) = .ok ns := by
  induction ns with
  | nil => rfl
  | cons n ns ih => rw [List.map_cons, numberOperands, numberOperand_numberText, ih]

/-! ### The lexer -/

/-- What may stand after a word: nothing, or a letter that ends it. -/
def EndsWord (rest : List Char) : Prop := ∀ c ∈ rest.head?, c = ' ' ∨ c = ',' ∨ c = ';'

/-- The end of a line: nothing, or a comment (R73). -/
def IsLineEnd (rest : List Char) : Prop := rest = [] ∨ ∃ comment, rest = ';' :: comment

theorem IsLineEnd.endsWord {rest : List Char} (h : IsLineEnd rest) : EndsWord rest := by
  obtain rfl | ⟨comment, rfl⟩ := h
  · intro c hc
    cases hc
  · rintro c ⟨⟩
    exact .inr (.inr rfl)

theorem IsLineEnd.lex {rest : List Char} (h : IsLineEnd rest) : lexLine false [] rest = some [] := by
  obtain rfl | ⟨comment, rfl⟩ := h <;> rfl

theorem lexLine_space (cs : List Char) : lexLine false [] (' ' :: cs) = lexLine false [] cs := by
  have hflush : flushWord [] = id := rfl
  rw [lexLine, if_neg Bool.false_ne_true, if_neg (by decide), if_pos (.inl rfl), hflush, Option.map_id]
  rfl

theorem lexLine_comma (cs : List Char) :
    lexLine false [] (',' :: cs) = (lexLine false [] cs).map (Token.comma :: ·) := by
  rw [lexLine, if_neg Bool.false_ne_true, if_neg (by decide), if_neg (by decide), if_pos rfl]
  rfl

/-- A word goes on through letters that do not end it. -/
theorem lexLine_letters {cs : List Char} (h : ∀ c ∈ cs, c ≠ ' ' ∧ c ≠ Char.ofNat 9 ∧ c ≠ ',' ∧ c ≠ ';' ∧ c ≠ quoteChar)
    (acc rest : List Char) : lexLine false acc (cs ++ rest) = lexLine false (cs.reverse ++ acc) rest := by
  induction cs generalizing acc with
  | nil => rfl
  | cons c cs ih =>
    obtain ⟨⟨hspace, htab, hcomma, hsemi, hquote⟩, hcs⟩ := List.forall_mem_cons.1 h
    rw [List.cons_append, lexLine, if_neg Bool.false_ne_true, if_neg hsemi, if_neg (not_or.2 ⟨hspace, htab⟩),
      if_neg hcomma, if_neg hquote, ih hcs, List.reverse_cons, List.append_assoc, List.singleton_append]

/-- A letter that ends the word leaves the rest to be read as if there had been no word. -/
theorem lexLine_flush {rest : List Char} (h : EndsWord rest) (acc : List Char) :
    lexLine false acc rest = (lexLine false [] rest).map (flushWord acc) := by
  cases rest with
  | nil => rfl
  | cons c cs =>
    obtain rfl | rfl | rfl := h c rfl
    · rw [lexLine_space, lexLine, if_neg Bool.false_ne_true, if_neg (by decide), if_pos (.inl rfl)]
    · rw [lexLine_comma, lexLine, if_neg Bool.false_ne_true, if_neg (by decide), if_neg (by decide), if_pos rfl,
        Option.map_map]
      rfl
    · rfl

/-- A name is read as one word. -/
theorem lexLine_name {cs rest : List Char} (h : IsName cs) (hrest : EndsWord rest) :
    lexLine false [] (cs ++ rest) = (lexLine false [] rest).map (Token.word cs :: ·) := by
  obtain ⟨hne, hcs⟩ := h
  have hflush : flushWord cs.reverse = (Token.word cs :: ·) := by
    funext ts
    rw [flushWord, List.isEmpty_reverse, if_neg (by simpa using hne), List.reverse_reverse]
  rw [lexLine_letters hcs, List.append_nil, lexLine_flush hrest, hflush]

/-- Inside a text every letter but the quote is the text's (R74). -/
theorem lexLine_text {text : List Char} (h : quoteChar ∉ text) (acc rest : List Char) :
    lexLine true acc (text ++ quoteChar :: rest)
      = (lexLine false [] rest).map (Token.text (acc.reverse ++ text) :: ·) := by
  induction text generalizing acc with
  | nil => rw [List.nil_append, lexLine, if_pos rfl, if_pos rfl, List.append_nil]
  | cons c cs ih =>
    obtain ⟨hc, hcs⟩ := not_or.1 (mt List.mem_cons.2 h)
    rw [List.cons_append, lexLine, if_pos rfl, if_neg (Ne.symm hc), ih hcs, List.reverse_cons, List.append_assoc,
      List.singleton_append]

theorem lexLine_quoted {text : List Char} (h : quoteChar ∉ text) (rest : List Char) :
    lexLine false [] (quoted text ++ rest) = (lexLine false [] rest).map (Token.text text :: ·) := by
  have hopen (cs : List Char) : lexLine false [] (quoteChar :: cs) = lexLine true [] cs := by
    have hflush : flushWord [] = id := rfl
    rw [lexLine, if_neg Bool.false_ne_true, if_neg (by decide), if_neg (by decide), if_neg (by decide), if_pos rfl,
      hflush, Option.map_id]
    rfl
  rw [quoted, List.cons_append, List.cons_append, hopen, List.append_assoc, List.singleton_append, lexLine_text h]
  rfl

/-! ### A line -/

/-- The source `o` of an operand is read as the token `t`, whatever ends it. -/
def Spells (o : List Char) (t : Token) : Prop :=
  t ≠ .comma ∧ ∀ rest, EndsWord rest → lexLine false [] (o ++ rest) = (lexLine false [] rest).map (t :: ·)

theorem spells_name {cs : List Char} (h : IsName cs) : Spells cs (.word cs) :=
  ⟨Token.noConfusion, fun _ hrest => lexLine_name h hrest⟩

theorem spells_quoted {text : List Char} (h : quoteChar ∉ text) : Spells (quoted text) (.text text) :=
  ⟨Token.noConfusion, fun rest _ => lexLine_quoted h rest⟩

theorem spells_numbers (hex : Bool) (ns : List Nat) :
    List.Forall₂ Spells (ns.map (numberText hex)) (ns.map fun n => .word (numberText hex n)) := by
  induction ns with
  | nil => exact .nil
  | cons n ns ih => exact .cons (spells_name (isName_numberText hex n)) ih

/-- The tokens of operands after the first, each with its comma. -/
def commaTokens (ts : List Token) : List Token := ts.flatMap fun t => [.comma, t]

/-- The operands after the first, each after a comma and a space. -/
theorem lexLine_laterOperands {os : List (List Char)} {ts : List Token} (h : List.Forall₂ Spells os ts)
    {rest : List Char} (hrest : IsLineEnd rest) :
    EndsWord (os.flatMap (fun o => ',' :: ' ' :: o) ++ rest)
      ∧ lexLine false [] (os.flatMap (fun o => ',' :: ' ' :: o) ++ rest) = some (commaTokens ts) := by
  induction h with
  | nil => exact ⟨hrest.endsWord, hrest.lex⟩
  | @cons o t os ts ho _ ih =>
    obtain ⟨hends, hlex⟩ := ih
    obtain ⟨_, ho⟩ := ho
    refine ⟨?_, ?_⟩
    · rintro c ⟨⟩
      exact .inr (.inl rfl)
    · rw [List.flatMap_cons, List.append_assoc, List.cons_append, List.cons_append, lexLine_comma, lexLine_space,
        ho _ hends, hlex]
      rfl

/-- The tokens of a line's operands. -/
def operandTokens : List Token → List Token
  | [] => []
  | t :: ts => t :: commaTokens ts

/-- A line is read as its mnemonic and its operands, up to a comment. -/
theorem lexLine_lineText {m : List Char} (hm : IsName m) {os : List (List Char)} {ts : List Token}
    (h : List.Forall₂ Spells os ts) {rest : List Char} (hrest : IsLineEnd rest) :
    lexLine false [] (lineText m os ++ rest) = some (.word m :: operandTokens ts) := by
  cases h with
  | nil => rw [lineText, lexLine_name hm hrest.endsWord, hrest.lex]; rfl
  | @cons o t os ts ho hos =>
    obtain ⟨hends, hlex⟩ := lexLine_laterOperands hos hrest
    have hspace : EndsWord (' ' :: o ++ (os.flatMap (fun o => ',' :: ' ' :: o) ++ rest)) := by
      rintro c ⟨⟩
      exact .inl rfl
    obtain ⟨_, ho⟩ := ho
    rw [lineText, List.append_assoc, List.append_assoc, lexLine_name hm hspace, List.cons_append, lexLine_space,
      ho _ hends, hlex]
    rfl

/-- Commas between operands separate them (R73). -/
theorem operandList_operandTokens {ts : List Token} (h : ∀ t ∈ ts, t ≠ .comma) :
    operandList (operandTokens ts) = some ts := by
  cases ts with
  | nil => rfl
  | cons t ts =>
    induction ts generalizing t with
    | nil =>
      cases t with
      | comma => exact absurd rfl (h _ (List.mem_singleton_self _))
      | word | text => rfl
    | cons u us ih =>
      obtain ⟨ht, hus⟩ := List.forall_mem_cons.1 h
      have hstep : operandList (t :: .comma :: u :: commaTokens us)
          = (operandList (u :: commaTokens us)).map (t :: ·) := by
        cases t with
        | comma => exact absurd rfl ht
        | word | text => rfl
      exact hstep.trans (congrArg (Option.map (t :: ·)) (ih u hus))

theorem not_comma_of_spells {os : List (List Char)} {ts : List Token} (h : List.Forall₂ Spells os ts) :
    ∀ t ∈ ts, t ≠ .comma := by
  induction h with
  | nil => exact List.forall_mem_nil _
  | cons ho _ ih => exact List.forall_mem_cons.2 ⟨ho.1, ih⟩

/-- A line's source is the line its mnemonic makes of its operands (R73). -/
theorem parseLine_lineText {m : List Char} {k : Keyword} (hk : keywordNames.lookup m = some k)
    {os : List (List Char)} {ts : List Token} (h : List.Forall₂ Spells os ts) {rest : List Char}
    (hrest : IsLineEnd rest) : parseLine (lineText m os ++ rest) = lineOf k ts := by
  rw [parseLine, lexLine_lineText (isName_of_lookup_keywordNames hk) h hrest]
  simp only [hk, operandList_operandTokens (not_comma_of_spells h)]

/-- A line with one number. -/
theorem parseLine_number {m : List Char} {k : Keyword} (hk : keywordNames.lookup m = some k) {line : Nat → AsmLine}
    (hline : ∀ ts, lineOf k ts = oneNumber line ts) (hex : Bool) (n : Nat) {rest : List Char}
    (hrest : IsLineEnd rest) : parseLine (lineText m [numberText hex n] ++ rest) = .ok (line n) := by
  rw [parseLine_lineText hk (.cons (spells_name (isName_numberText hex n)) .nil) hrest, hline, oneNumber,
    numberOperand_numberText]
  rfl

/-- A line without operands. -/
theorem parseLine_noOperand {m : List Char} {k : Keyword} (hk : keywordNames.lookup m = some k) {line : AsmLine}
    (hline : lineOf k [] = .ok line) {rest : List Char} (hrest : IsLineEnd rest) :
    parseLine (lineText m [] ++ rest) = .ok line :=
  (parseLine_lineText hk .nil hrest).trans hline

/-- The source of a line is read as the line (R73, R74), up to a comment. -/
theorem parseLine_sourceOf (hex : Bool) (line : AsmLine)
    (hquote : ∀ (f : WindowFlag) (text : List Char), line = .wstr f text → quoteChar ∉ text) {rest : List Char}
    (hrest : IsLineEnd rest) : parseLine (sourceOf hex line ++ rest) = .ok line := by
  cases line with
  | blank => rw [sourceOf, List.nil_append, parseLine, hrest.lex]
  | nop => exact parseLine_noOperand (k := .nop) rfl rfl hrest
  | wend => exact parseLine_noOperand (k := .wend) rfl rfl hrest
  | clear => exact parseLine_noOperand (k := .clear) rfl rfl hrest
  | rdstate => exact parseLine_noOperand (k := .rdstate) rfl rfl hrest
  | rdwork => exact parseLine_noOperand (k := .rdwork) rfl rfl hrest
  | rdstatus => exact parseLine_noOperand (k := .rdstatus) rfl rfl hrest
  | wbyte b => exact parseLine_number (k := .wbyte) rfl (fun _ => rfl) hex b hrest
  | ldlo imm => exact parseLine_number (k := .ldlo) rfl (fun _ => rfl) hex imm hrest
  | ldhi imm => exact parseLine_number (k := .ldhi) rfl (fun _ => rfl) hex imm hrest
  | word w => exact parseLine_number (k := .word) rfl (fun _ => rfl) hex w hrest
  | ld32 v => exact parseLine_number (k := .ld32) rfl (fun _ => rfl) hex v hrest
  | wbegin f =>
    rw [sourceOf, parseLine_lineText (k := .wbegin) rfl (.cons (spells_name (isName_flagText f)) .nil) hrest, lineOf,
      oneFlag, flagOperand_flagText]
    rfl
  | wbytes bs =>
    rw [sourceOf, parseLine_lineText (k := .wbytes) rfl (spells_numbers hex bs) hrest, lineOf,
      numberOperands_numberText]
    rfl
  | window f bs =>
    rw [sourceOf, parseLine_lineText (k := .window) rfl (.cons (spells_name (isName_flagText f)) (spells_numbers hex bs))
      hrest, lineOf, flagAndNumbers, flagOperand_flagText, numberOperands_numberText]
    rfl
  | wstr f text =>
    rw [sourceOf, parseLine_lineText (k := .wstr) rfl
      (.cons (spells_name (isName_flagText f)) (.cons (spells_quoted (hquote f text rfl)) .nil)) hrest, lineOf,
      flagAndText, flagOperand_flagText]
    rfl

theorem assembleText_of_parse_ok {text : List Char} {line : AsmLine} (h : parseLine text = .ok line) :
    assembleText text = assemble line := by
  rw [assembleText, h]

theorem assembleText_of_parse_error {text : List Char} {e : AsmError} (h : parseLine text = .error e) :
    assembleText text = .error e := by
  rw [assembleText, h]

/-- A line whose mnemonic refuses its operands is refused. -/
theorem assembleText_of_lineOf_error {m : List Char} {k : Keyword} (hk : keywordNames.lookup m = some k)
    {os : List (List Char)} {ts : List Token} (h : List.Forall₂ Spells os ts) {e : AsmError}
    (he : lineOf k ts = .error e) : assembleText (lineText m os) = .error e := by
  have hparse := parseLine_lineText hk h (.inl rfl)
  rw [List.append_nil, he] at hparse
  exact assembleText_of_parse_error hparse

/-! ### The obligation -/

/-- Settles O59: a line's source is read as the line with or without a comment after it, and the flag is the first
operand that is read. -/
theorem assemblerReadsTheSourceOfALine : Obligations.AssemblerReadsTheSourceOfALine := by
  refine ⟨fun hex line comment hquote => ⟨?_, ?_⟩, fun name hname hne => ?_⟩
  · have hparse := parseLine_sourceOf hex line hquote (.inl rfl)
    rw [List.append_nil] at hparse
    exact assembleText_of_parse_ok hparse
  · exact assembleText_of_parse_ok (parseLine_sourceOf hex line hquote (.inr ⟨comment, rfl⟩))
  · have hflag : flagOperand (.word name) = .error .unknownFlag := flagOperand_of_ne hne
    have hname := spells_name hname
    refine ⟨?_, fun hex bs => ?_, fun text htext => ?_⟩
    · exact assembleText_of_lineOf_error (k := .wbegin) rfl (.cons hname .nil) (by rw [lineOf, oneFlag, hflag]; rfl)
    · exact assembleText_of_lineOf_error (k := .window) rfl (.cons hname (spells_numbers hex bs))
        (by rw [lineOf, flagAndNumbers, hflag])
    · exact assembleText_of_lineOf_error (k := .wstr) rfl (.cons hname (.cons (spells_quoted htext) .nil))
        (by rw [lineOf, flagAndText, hflag]; rfl)

end Sys2Proof.Machine
end
